-- ==== Sys2Proof/Word.lean ====
section
/-! DEFINITION. The Word: an unsigned integer of w bits, the unit of core and the width of every register (R6, R16). -/
namespace Sys2Proof

/-- A Word of `w` bits (R16). `BitVec` addition is the rule's `+w`: it wraps modulo 2^w. -/
abbrev Word (w : Nat) := BitVec w

/-- The function-code field, 4 bits at every width (R60). -/
abbrev FnField := BitVec 4

/-- DISP_BITS = w - 8: the width of the inline displacement field (R12). -/
def dispBits (w : Nat) : Nat := w - 8

/-- The reference word width (R6). -/
abbrev referenceWidth : Nat := 8

end Sys2Proof
end

