-- ==== Sys2Proof/Config.lean ====
section
/-! DEFINITION. What a build of the block fixes (R6-R11, R19) and the values the spec leaves free. -/
namespace Sys2Proof

/-- FN_CODE: the 4-bit code of each of the eight operations (R11, R63). -/
structure FnCode where
  load : FnField
  store : FnField
  add : FnField
  jmp : FnField
  jmpt : FnField
  jmpf : FnField
  call : FnField
  exop : FnField
deriving DecidableEq, Repr

/-- The codes FN_CODE gives away, in the order of R63's table. -/
def FnCode.codes (fc : FnCode) : List FnField :=
  [fc.load, fc.store, fc.add, fc.jmp, fc.jmpt, fc.jmpf, fc.call, fc.exop]

/-- FN_CODE is an injective map (R11, R19). -/
abbrev FnCode.injective (fc : FnCode) : Prop := fc.codes.Nodup

/-- The default FN_CODE, the INTCODE order (R11, R63, D1).
PRESUMED (log 1), unsafe: the source numbers no operation. -/
def FnCode.standard : FnCode :=
  { load := 0, store := 1, add := 2, jmp := 3, jmpt := 4, jmpf := 5, call := 6, exop := 7 }

/-- The parameters fixed when the block is built, other than the word width and the EXOP hook
(R7, R8, R9, R11). `stepBudget` is -1 for no limit. -/
structure Config where
  coreSize : Nat
  stepBudget : Int
  traceLevel : Int
  fnCode : FnCode
deriving DecidableEq, Repr

/-- The legal parameters of a block of width `w`; any other is refused at construction (R19). -/
abbrev Config.legal (w : Nat) (c : Config) : Prop :=
  8 ≤ w ∧ 16 ≤ c.coreSize ∧ -1 ≤ c.stepBudget ∧ c.fnCode.injective

/-- The build that `State.reset` is the reset of: CORE_SIZE, STEP_BUDGET and FN_CODE are those of
95_test_vectors.md. DESIGN CHOICE (log 2), unsafe for a claim about this one build. -/
def Config.reference : Config :=
  { coreSize := 256, stepBudget := -1, traceLevel := 0, fnCode := FnCode.standard }

/-- The kinds of trace event the spec names (R14, R149). -/
inductive TraceKind
  | execute
  | exopWarning
  | loaderEmit
deriving DecidableEq, Repr

/-- Whether a trace level emits a kind of event: free (R14, D13). DESIGN CHOICE (log 10), safe. -/
opaque Config.traceEmits : Int → TraceKind → Bool

/-- The text of `mnemonicOf` for a code that names no operation: free (R66, D28).
DESIGN CHOICE (log 11), safe. -/
opaque Config.unknownMnemonic : FnField → String

end Sys2Proof
end

