-- ==== Sys2Proof/Syntax.lean ====
section
/-! DEFINITION. The instructions: one constructor for each row of the opcode table (R63, R128). -/
namespace Sys2Proof

/-- The modifier bits and the displacement field of an instruction word (R60). The field is kept as
the unsigned number its bits spell, whatever the D bit is (R62, R65); it is below 2^(w-8) in a
well-formed instruction. -/
structure Fields where
  dBit : Bool
  pBit : Bool
  gBit : Bool
  iBit : Bool
  dispField : Nat
deriving DecidableEq, Repr

/-- The eight primitive operations (R63). -/
inductive Op
  | load | store | add | jmp | jmpt | jmpf | call | exop
deriving DecidableEq, Repr

/-- A decoded instruction. The operand word is no part of it: the effective-address unit fetches it
after decode, under a check of its own (R69, R87). -/
inductive Instr
  /-- LOAD (R101) -/
  | load (f : Fields)
  /-- STORE (R120) -/
  | store (f : Fields)
  /-- ADD (R100) -/
  | add (f : Fields)
  /-- JMP (R111) -/
  | jmp (f : Fields)
  /-- JMPT (R112) -/
  | jmpt (f : Fields)
  /-- JMPF (R113) -/
  | jmpf (f : Fields)
  /-- CALL (R110) -/
  | call (f : Fields)
  /-- EXOP (R125) -/
  | exop (f : Fields)
  /-- A function code that FN_CODE gives no operation (R128); `fn` is that code. -/
  | unknown (fn : FnField) (f : Fields)
deriving DecidableEq, Repr

/-- The modifier bits and displacement of an instruction. -/
def Instr.fields : Instr → Fields
  | .load f => f
  | .store f => f
  | .add f => f
  | .jmp f => f
  | .jmpt f => f
  | .jmpf f => f
  | .call f => f
  | .exop f => f
  | .unknown _ f => f

end Sys2Proof
end

