-- ==== Sys2Proof/WellFormed.lean ====
section
/-! DEFINITION. Which instructions a word of w bits can hold under an FN_CODE map. -/
namespace Sys2Proof

/-- The displacement fits its field of w - 8 bits (R62, R65). -/
def Fields.wf (w : Nat) (f : Fields) : Bool := decide (f.dispField < 2 ^ dispBits w)

/-- An instruction is well formed when its displacement fits and, for an unknown function code, when
FN_CODE gives that code no operation (R67, R92). Every modifier combination is legal (R68). -/
def Instr.wf (w : Nat) (fc : FnCode) : Instr → Bool
  | .load f => f.wf w
  | .store f => f.wf w
  | .add f => f.wf w
  | .jmp f => f.wf w
  | .jmpt f => f.wf w
  | .jmpf f => f.wf w
  | .call f => f.wf w
  | .exop f => f.wf w
  | .unknown fn f => f.wf w && !fc.codes.contains fn

end Sys2Proof
end

