-- ==== Sys2Proof/Decode.lean ====
section
/-! DEFINITION. The instruction_word_codec and the instruction_decoder (30_encoding.md), and the encoder.
Decoding is total: every Word decodes (R64, R85), so the decoder refuses no word; a code without an
operation becomes the instruction `unknown`. -/
namespace Sys2Proof

/-- What the codec splits a word into (R64). -/
structure Decoded where
  fn : FnField
  fields : Fields
deriving DecidableEq, Repr

/-- `decode(IR)` of R64: the field positions of R60. -/
def splitWord {w : Nat} (ir : Word w) : Decoded :=
  { fn := ir.extractLsb' 0 4
    fields :=
      { dBit := ir.getLsbD (w - 1)
        pBit := ir.getLsbD (w - 2)
        gBit := ir.getLsbD (w - 3)
        iBit := ir.getLsbD (w - 4)
        dispField := (ir.extractLsb' 4 (dispBits w)).toNat } }

/-- `encode(fn, d, p, g, i, f)` of R65, the sum the rule writes. -/
def packWord (w : Nat) (t : Decoded) : Word w :=
  BitVec.ofNat w
    (t.fields.dBit.toNat * 2 ^ (w - 1) + t.fields.pBit.toNat * 2 ^ (w - 2)
      + t.fields.gBit.toNat * 2 ^ (w - 3) + t.fields.iBit.toNat * 2 ^ (w - 4)
      + t.fields.dispField * 2 ^ 4 + t.fn.toNat)

/-- The operation a function code selects through FN_CODE; `none` for an unknown code (R92). -/
def FnCode.opOf (fc : FnCode) (fn : FnField) : Option Op :=
  if fn = fc.load then some .load
  else if fn = fc.store then some .store
  else if fn = fc.add then some .add
  else if fn = fc.jmp then some .jmp
  else if fn = fc.jmpt then some .jmpt
  else if fn = fc.jmpf then some .jmpf
  else if fn = fc.call then some .call
  else if fn = fc.exop then some .exop
  else none

/-- FN_CODE(op) (R11). -/
def FnCode.codeOf (fc : FnCode) : Op → FnField
  | .load => fc.load
  | .store => fc.store
  | .add => fc.add
  | .jmp => fc.jmp
  | .jmpt => fc.jmpt
  | .jmpf => fc.jmpf
  | .call => fc.call
  | .exop => fc.exop

/-- The instruction an operation and the fields make. -/
def Op.instr (op : Op) (f : Fields) : Instr :=
  match op with
  | .load => .load f
  | .store => .store f
  | .add => .add f
  | .jmp => .jmp f
  | .jmpt => .jmpt f
  | .jmpf => .jmpf f
  | .call => .call f
  | .exop => .exop f

/-- The instruction a word holds: the codec's split (R64) and the decoder's dispatch (R92). -/
def decode {w : Nat} (fc : FnCode) (ir : Word w) : Instr :=
  match fc.opOf (splitWord ir).fn with
  | some op => op.instr (splitWord ir).fields
  | none => .unknown (splitWord ir).fn (splitWord ir).fields

/-- The function code of an instruction under FN_CODE. -/
def Instr.fnOf (fc : FnCode) : Instr → FnField
  | .load _ => fc.codeOf .load
  | .store _ => fc.codeOf .store
  | .add _ => fc.codeOf .add
  | .jmp _ => fc.codeOf .jmp
  | .jmpt _ => fc.codeOf .jmpt
  | .jmpf _ => fc.codeOf .jmpf
  | .call _ => fc.codeOf .call
  | .exop _ => fc.codeOf .exop
  | .unknown fn _ => fn

/-- The instruction word of an instruction (R65). The operand word of the two-word form is data that
follows it in core and is never encoded (R69). -/
def encode (w : Nat) (fc : FnCode) (i : Instr) : Word w :=
  packWord w { fn := i.fnOf fc, fields := i.fields }

/-- How many words an instruction occupies: the D bit alone tells (R61). -/
def Instr.length (i : Instr) : Nat := if i.fields.dBit then 2 else 1

/-- `mnemonicOf` (R66), used for tracing only. The text for an unknown code is free (log 11). -/
def mnemonicOf (fc : FnCode) (fn : FnField) : String :=
  match fc.opOf fn with
  | some .load => "LOAD"
  | some .store => "STORE"
  | some .add => "ADD"
  | some .jmp => "JMP"
  | some .jmpt => "JMPT"
  | some .jmpf => "JMPF"
  | some .call => "CALL"
  | some .exop => "EXOP"
  | none => Config.unknownMnemonic fn

/-- What the decoder reads from an opcode-table word: the table's rows are given at the reference
width of 8 bits under the default FN_CODE (log 1, log 2), and only the first word is decoded. -/
def decodeTableWord (nbits w : Nat) : Option Instr :=
  if nbits = 0 then none
  else some (decode FnCode.standard (BitVec.ofNat referenceWidth (w % 2 ^ nbits)))

end Sys2Proof
end

