-- ==== Sys2Proof/Machine/State.lean ====
section
/-! DEFINITION. Everything the spec gives the block, as plain data (10_state.md), its reset (R35, R180), and
the reasons a transaction can stop. -/
namespace Sys2Proof.Machine

/-- The register file: six Words (R20). None is hardwired and none aliases another (R27). -/
structure Regs (w : Nat) where
  pc : Word w
  d : Word w
  p : Word w
  g : Word w
  a : Word w
  b : Word w
deriving DecidableEq, Repr

/-- The fault kinds of R160. -/
inductive FaultKind
  | none
  | stepLimitExceeded
  | programCounterOutOfRange
  | indirectAddressOutOfRange
  | storeAddressOutOfRange
  | callFrameOutOfRange
  | unknownFunction
  | loaderOverflow
  | allocationFailure
deriving DecidableEq, Repr

/-- The fault record: the kind, the address that failed its check, and pc0 of the step that raised
it (R30, R164). -/
structure FaultRecord (w : Nat) where
  kind : FaultKind
  addr : Nat
  pc : Word w
deriving DecidableEq, Repr

/-- No fault: (kind 0, addr 0, pc 0) (R35). -/
def FaultRecord.clear {w : Nat} : FaultRecord w := { kind := .none, addr := 0, pc := 0 }

/-- Core: (address, word) pairs in one canonical form, addresses strictly rising and no entry equal
to what an unlisted address reads as (R34, R40). At w = 8 an entry is a `Host.Cell` (log 8). -/
abbrev Memory (w : Nat) := List (Nat × Word w)

/-- What an unlisted address of core reads as: the reset contents, 0 (R35, log 9). -/
def Memory.unlisted {w : Nat} : Word w := 0

/-- The canonical form: addresses strictly rise, every address is a core address (R34), and no entry
holds the unlisted value. -/
def Memory.wf {w : Nat} (coreSize : Nat) (m : Memory w) : Bool :=
  decide (m.Pairwise fun x y => x.1 < y.1) &&
    m.all fun c => decide (c.1 < coreSize) && c.2 != Memory.unlisted

/-- The block at word width `w`: its construction values (R31), registers (R20), status (R28, R29,
R30) and core (R34). -/
structure Block (w : Nat) where
  cfg : Config
  regs : Regs w
  halted : Bool
  stepsTaken : Nat
  fault : FaultRecord w
  core : Memory w
deriving DecidableEq, Repr

/-- The machine: a word width, fixed when the block is built (R6), and the block at that width. -/
structure State where
  wordBits : Nat
  block : Block wordBits
deriving DecidableEq, Repr

/-- Why a step answers no next state. -/
inductive Fault
  /-- Raised by a step of a frozen block: an earlier step recorded this fatal fault, the block
  returns it again and changes nothing (R80, R165). `pc` is the recorded pc0 as a number. Safe. -/
  | frozen (kind : FaultKind) (addr : Nat) (pc : Nat)
deriving DecidableEq, Repr

/-- Why a transaction is refused. -/
inductive Refusal
  /-- Raised by an arm of `exec` whose instruction has no meaning yet; no arm does. Safe. -/
  | notModelled (mnemonic : String)
  /-- Raised by construction with a parameter outside its legal range: no instance exists (R19). Safe. -/
  | illegalParameter
  /-- Raised by a host access outside the interface: an address that is no core address, or a
  register write after the first step (R13, R36, R185). Safe. -/
  | outsideInterface
deriving DecidableEq, Repr

/-- What the checked part of a step comes to: it is done with a block to commit, or it raised a fault
of a kind at an address (R18, R93). -/
inductive Attempt (w : Nat)
  | done (b : Block w)
  | raised (kind : FaultKind) (addr : Nat)
deriving DecidableEq, Repr

/-- What EXOP_HOOK is given: the full decoded instruction, the registers after the effective-address
unit has run, and core (R125, R126). -/
structure ExopInput (w : Nat) where
  decoded : Decoded
  regs : Regs w
  coreSize : Nat
  core : Memory w

/-- What EXOP_HOOK returns: every register and any core words (R126). It has no way to name halted,
stepsTaken, the fault record or the configuration, which it may not change. -/
structure ExopOutput (w : Nat) where
  regs : Regs w
  writes : List (Nat × Word w)

/-- EXOP_HOOK: a total function, given at every width (R10, R126). It is configuration and never part
of State (log 7). -/
abbrev ExopHook := (w : Nat) → ExopInput w → ExopOutput w

/-- A block right after reset, keeping its construction values (R35, R180). -/
def Block.resetOf (w : Nat) (cfg : Config) : Block w :=
  { cfg := cfg
    regs := { pc := 0, d := 0, p := 0, g := 0, a := 0, b := 0 }
    halted := false
    stepsTaken := 0
    fault := FaultRecord.clear
    core := [] }

/-- The machine right after reset (R35), for the reference build (log 2). -/
def State.reset : State :=
  { wordBits := referenceWidth, block := Block.resetOf referenceWidth Config.reference }

end Sys2Proof.Machine
end

