-- ==== Sys2Proof/Machine/Ops.lean ====
section
/-! DEFINITION. The named operations over core and the registers, raising a fault, and committing a step
(00_scope.md R18, 20_memory.md, 40_engine.md R93, 60_exceptions.md). -/
namespace Sys2Proof.Machine

/-! ### Core -/

/-- The word at an address: the entry listed for it, else the unlisted value. -/
def Memory.read {w : Nat} : Memory w → Nat → Word w
  | [], _ => Memory.unlisted
  | (k, v) :: rest, addr => if addr = k then v else Memory.read rest addr

/-- Core without any entry for an address. -/
def Memory.erase {w : Nat} (m : Memory w) (addr : Nat) : Memory w :=
  m.filter fun c => c.1 != addr

/-- Insert an entry before the first entry with a higher address. -/
def Memory.insert {w : Nat} : Memory w → Nat → Word w → Memory w
  | [], addr, v => [(addr, v)]
  | (k, x) :: rest, addr, v =>
    if addr < k then (addr, v) :: (k, x) :: rest else (k, x) :: Memory.insert rest addr v

/-- Set the word at an address, keeping the canonical form: the unlisted value is never listed. -/
def Memory.write {w : Nat} (m : Memory w) (addr : Nat) (v : Word w) : Memory w :=
  if v = Memory.unlisted then m.erase addr else (m.erase addr).insert addr v

/-- Set each listed word in turn, where its address is a core address; no other word exists (R34). It
serves EXOP's hook alone, and an address of 2^w and above that is below CORE_SIZE is written like any
other: R44 and R126 give the hook any core cell, where R7, R41 and D9 leave such words to the host and
the loader. DESIGN CHOICE (log 30), safe. -/
def Memory.writeAll {w : Nat} (coreSize : Nat) : Memory w → List (Nat × Word w) → Memory w
  | m, [] => m
  | m, (addr, v) :: rest =>
    Memory.writeAll coreSize (if addr < coreSize then m.write addr v else m) rest

/-- The bounds check `addr < CORE_SIZE` on an unsigned address (R18, R45). -/
abbrev Block.inCore {w : Nat} (b : Block w) (addr : Word w) : Prop := addr.toNat < b.cfg.coreSize

/-- MemRead(addr, 1) (R18). -/
def Block.readWord {w : Nat} (b : Block w) (addr : Word w) : Word w := b.core.read addr.toNat

/-- MemWrite(addr, 1, v) (R18). -/
def Block.writeWord {w : Nat} (b : Block w) (addr v : Word w) : Block w :=
  { b with core := b.core.write addr.toNat v }

/-! ### Registers (R17) -/

/-- `pc <- v` -/
def Block.setPc {w : Nat} (b : Block w) (v : Word w) : Block w :=
  { b with regs := { b.regs with pc := v } }

/-- `D <- v` -/
def Block.setD {w : Nat} (b : Block w) (v : Word w) : Block w :=
  { b with regs := { b.regs with d := v } }

/-- `P <- v` -/
def Block.setP {w : Nat} (b : Block w) (v : Word w) : Block w :=
  { b with regs := { b.regs with p := v } }

/-- `A <- v` -/
def Block.setA {w : Nat} (b : Block w) (v : Word w) : Block w :=
  { b with regs := { b.regs with a := v } }

/-- `B <- v` -/
def Block.setB {w : Nat} (b : Block w) (v : Word w) : Block w :=
  { b with regs := { b.regs with b := v } }

/-- `G <- v`: no operation does it; the host's preload does (R26, R36). -/
def Block.setG {w : Nat} (b : Block w) (v : Word w) : Block w :=
  { b with regs := { b.regs with g := v } }

/-- The pc increment after a fetched word, wrapping modulo 2^w (R21, R84). -/
def Block.advancePc {w : Nat} (b : Block w) : Block w := b.setPc (b.regs.pc + 1)

/-! ### Raising a fault, committing, and leaving the stop states -/

/-- The numeric code of a fault kind (R160). -/
def FaultKind.code : FaultKind → Nat
  | .none => 0
  | .stepLimitExceeded => 1
  | .programCounterOutOfRange => 2
  | .indirectAddressOutOfRange => 3
  | .storeAddressOutOfRange => 4
  | .callFrameOutOfRange => 5
  | .unknownFunction => 6
  | .loaderOverflow => 7
  | .allocationFailure => 8

/-- The fatal class of R160: a record of such a kind freezes the block (R165). LoaderOverflow is
fatal but never recorded by the block, and AllocationFailure belongs to construction (log 21). -/
def FaultKind.isFatal : FaultKind → Bool
  | .none => false
  | .stepLimitExceeded => true
  | .programCounterOutOfRange => true
  | .indirectAddressOutOfRange => true
  | .storeAddressOutOfRange => true
  | .callFrameOutOfRange => true
  | .unknownFunction => false
  | .loaderOverflow => true
  | .allocationFailure => false

/-- TAKING A FAULT, for a block as it was when its step started: the record becomes (kind, addr, pc0)
and nothing else changes (R18, R93, R164). There is no vector, handler or saved-pc register (R166). -/
def Block.raise {w : Nat} (b : Block w) (kind : FaultKind) (addr : Nat) : Block w :=
  { b with fault := { kind := kind, addr := addr, pc := b.regs.pc } }

/-- LEAVING A FAULT: there is no return from a fault; only reset clears the record and `halted`
(R165, R167, R180). The construction values stay. -/
def Block.resetAgain {w : Nat} (b : Block w) : Block w := Block.resetOf w b.cfg

/-- One more step performed (R29). -/
def Block.countStep {w : Nat} (b : Block w) : Block w := { b with stepsTaken := b.stepsTaken + 1 }

/-- Run the rest of a step unless a fault was raised. -/
def Attempt.andThen {w : Nat} (t : Attempt w) (rest : Block w → Attempt w) : Attempt w :=
  match t with
  | .done b => rest b
  | .raised kind addr => .raised kind addr

/-- A step commits all or nothing: what it computed, with the step counted, or the state at its start
with only the fault record set (R80, R93). -/
def Block.commit {w : Nat} (start : Block w) : Attempt w → Block w
  | .done b => b.countStep
  | .raised kind addr => start.raise kind addr

end Sys2Proof.Machine
end

