-- ==== Sys2Proof/Machine/Operands.lean ====
section
/-! DEFINITION. The effective-address unit (40_engine.md R86-R91), shared by every instruction, and the frame of
an executed instruction around its dispatch arm. -/
namespace Sys2Proof.Machine

/-- `sext_w(dispField)`: the two's complement value of the w-8-bit field (R16, R62). At w = 8 the
field is empty and its value is 0. -/
def sextDisp (w field : Nat) : Word w := (BitVec.ofNat (dispBits w) field).signExtend w

/-- Step 1, the base, with pc already past the instruction word: the operand word, fetched under the
pc-range check, or the pc-relative inline displacement (R86, R87). -/
def fetchBase {w : Nat} (f : Fields) (b : Block w) : Attempt w :=
  if f.dBit then
    if b.inCore b.regs.pc then .done (b.setD (b.readWord b.regs.pc)).advancePc
    else .raised .programCounterOutOfRange b.regs.pc.toNat
  else .done (b.setD (b.regs.pc + sextDisp w f.dispField))

/-- Step 2: `if pBit: D += P` (R88). -/
def addFrame {w : Nat} (f : Fields) (b : Block w) : Block w :=
  if f.pBit then b.setD (b.regs.d + b.regs.p) else b

/-- Step 3: `if gBit: D += G` (R88). -/
def addGlobal {w : Nat} (f : Fields) (b : Block w) : Block w :=
  if f.gBit then b.setD (b.regs.d + b.regs.g) else b

/-- Step 4: one level of indirection, bounds-checked (R89). -/
def indirect {w : Nat} (f : Fields) (b : Block w) : Attempt w :=
  if f.iBit then
    if b.inCore b.regs.d then .done (b.setD (b.readWord b.regs.d))
    else .raised .indirectAddressOutOfRange b.regs.d.toNat
  else .done b

/-- The effective-address unit: it leaves its result in D (R86-R90). -/
def effectiveAddress {w : Nat} (f : Fields) (b : Block w) : Attempt w :=
  (fetchBase f b).andThen fun b => indirect f (addGlobal f (addFrame f b))

/-- An executed instruction: past the opcode word (R84), through the effective-address unit whatever
the function code (R91), then its dispatch arm (R92), committed as one (R93). -/
def Block.execute {w : Nat} (b : Block w) (f : Fields) (arm : Block w → Attempt w) : Block w :=
  b.commit ((effectiveAddress f b.advancePc).andThen arm)

/-- `Block.execute` on the machine: it always answers a next state, a raised fault being one (log 4). -/
def State.execute (s : State) (f : Fields) (arm : Block s.wordBits → Attempt s.wordBits) :
    Host.Outcome State Fault Refusal :=
  .next { wordBits := s.wordBits, block := s.block.execute f arm }

end Sys2Proof.Machine
end

