-- ==== Sys2Proof/Machine/Accumulator.lean ====
section
/-! DEFINITION. LOAD and ADD, and the alu_accumulator's one operation (41_accumulator.md). -/
namespace Sys2Proof.Machine

/-- LOAD's arm: `B <- A` with the old A, then `A <- D` (R101, R94). -/
def loadArm {w : Nat} (b : Block w) : Attempt w := .done ((b.setB b.regs.a).setA b.regs.d)

/-- ADD's arm: `A <- A +w D`; the carry is recorded nowhere (R100, R102). -/
def addArm {w : Nat} (b : Block w) : Attempt w := .done (b.setA (b.regs.a + b.regs.d))

/-- LOAD (R101). -/
def execLoad (f : Fields) (s : State) : Host.Outcome State Fault Refusal := s.execute f loadArm

/-- ADD (R100). -/
def execAdd (f : Fields) (s : State) : Host.Outcome State Fault Refusal := s.execute f addArm

end Sys2Proof.Machine
end

