-- ==== Sys2Proof/Machine/Flags.lean ====
section
/-! DEFINITION. Conditions. The block has no condition codes and no flag but `halted` (R32): ADD sets none, and
JMPT and JMPF test the accumulator itself. -/
namespace Sys2Proof.Machine

/-- The test of JMPT and JMPF: "true" is any non-zero accumulator (R32, R112, R113). -/
def accTrue {w : Nat} (a : Word w) : Bool := a != 0

end Sys2Proof.Machine
end

