-- ==== Sys2Proof/Machine/Control.lean ====
section
/-! DEFINITION. JMP, JMPT, JMPF and CALL (42_control.md). A target is any Word; one outside core faults at the next
fetch (R43, R117). -/
namespace Sys2Proof.Machine

/-- JMP's arm: `pc <- D` (R111). -/
def jmpArm {w : Nat} (b : Block w) : Attempt w := .done (b.setPc b.regs.d)

/-- JMPT's arm: `if A != 0: pc <- D`, else the fall-through address stays (R112). -/
def jmptArm {w : Nat} (b : Block w) : Attempt w :=
  if accTrue b.regs.a then .done (b.setPc b.regs.d) else .done b

/-- JMPF's arm: `if A = 0: pc <- D` (R113). -/
def jmpfArm {w : Nat} (b : Block w) : Attempt w :=
  if accTrue b.regs.a then .done b else .done (b.setPc b.regs.d)

/-- CALL's first write, `D <- D +w P`, in addition to any P the unit added (R110). -/
def callFrame {w : Nat} (b : Block w) : Block w := b.setD (b.regs.d + b.regs.p)

/-- CALL's writes once both frame words are checked: the old P, the return address, then
`P <- D; pc <- A` (R110, R94). -/
def callWrites {w : Nat} (b : Block w) : Block w :=
  (((b.writeWord b.regs.d b.regs.p).writeWord (b.regs.d + 1) b.regs.pc).setP b.regs.d).setPc b.regs.a

/-- CALL's arm: both frame words are checked before either is written (R110). `D +w 1` wraps modulo
2^w (R110, D8, log 12). -/
def callArm {w : Nat} (b : Block w) : Attempt w :=
  if (callFrame b).inCore (callFrame b).regs.d then
    if (callFrame b).inCore ((callFrame b).regs.d + 1) then .done (callWrites (callFrame b))
    else .raised .callFrameOutOfRange ((callFrame b).regs.d + 1).toNat
  else .raised .callFrameOutOfRange (callFrame b).regs.d.toNat

/-- JMP (R111). -/
def execJmp (f : Fields) (s : State) : Host.Outcome State Fault Refusal := s.execute f jmpArm

/-- JMPT (R112). -/
def execJmpt (f : Fields) (s : State) : Host.Outcome State Fault Refusal := s.execute f jmptArm

/-- JMPF (R113). -/
def execJmpf (f : Fields) (s : State) : Host.Outcome State Fault Refusal := s.execute f jmpfArm

/-- CALL (R110). -/
def execCall (f : Fields) (s : State) : Host.Outcome State Fault Refusal := s.execute f callArm

end Sys2Proof.Machine
end

