-- ==== Sys2Proof/Machine/Extension.lean ====
section
/-! DEFINITION. EXOP and the unknown function codes (44_extension.md). -/
namespace Sys2Proof.Machine

/-- The default EXOP_HOOK: the identity, the reference no-op (R10, R125). -/
def exopHook : ExopHook := fun _ x => { regs := x.regs, writes := [] }

/-- Run a hook on a block: the registers and core words it returns, and nothing else, change (R126).
A write it names outside core is dropped, since no such word exists (R34): DESIGN CHOICE (log 7). One
it names at 2^w or above, below CORE_SIZE, is made: DESIGN CHOICE (log 30). -/
def applyHook {w : Nat} (hook : ExopHook) (f : Fields) (b : Block w) : Block w :=
  { b with
    regs :=
      (hook w { decoded := { fn := b.cfg.fnCode.exop, fields := f }, regs := b.regs,
                coreSize := b.cfg.coreSize, core := b.core }).regs
    core :=
      b.core.writeAll b.cfg.coreSize
        (hook w { decoded := { fn := b.cfg.fnCode.exop, fields := f }, regs := b.regs,
                  coreSize := b.cfg.coreSize, core := b.core }).writes }

/-- EXOP under any hook (R125, R126): it raises no fault of its own. -/
def execExopWith (hook : ExopHook) (f : Fields) (s : State) : Host.Outcome State Fault Refusal :=
  s.execute f fun b => .done (applyHook hook f b)

/-- EXOP under the default hook (R125). -/
def execExop (f : Fields) (s : State) : Host.Outcome State Fault Refusal :=
  execExopWith exopHook f s

/-- The unknown arm: `halted <- true` and the soft record (UnknownFunction, pc0, pc0) (R128, R164). -/
def unknownArm {w : Nat} (pc0 : Word w) (b : Block w) : Attempt w :=
  .done { b with
    halted := true
    fault := { kind := .unknownFunction, addr := pc0.toNat, pc := pc0 } }

/-- An unknown function code (R128), through the effective-address unit like every other (R91). Which
of the unknown codes it is makes no difference. -/
def execUnknown (_fn : FnField) (f : Fields) (s : State) : Host.Outcome State Fault Refusal :=
  s.execute f (unknownArm s.block.regs.pc)

end Sys2Proof.Machine
end

