-- ==== Sys2Proof/Machine/Store.lean ====
section
/-! DEFINITION. STORE (43_store.md). -/
namespace Sys2Proof.Machine

/-- STORE's arm: bounds-check D, then `core[D] <- A`, the whole word unchanged (R120, R121). -/
def storeArm {w : Nat} (b : Block w) : Attempt w :=
  if b.inCore b.regs.d then .done (b.writeWord b.regs.d b.regs.a)
  else .raised .storeAddressOutOfRange b.regs.d.toNat

/-- STORE (R120). -/
def execStore (f : Fields) (s : State) : Host.Outcome State Fault Refusal := s.execute f storeArm

end Sys2Proof.Machine
end

