-- ==== Sys2Proof/Machine/Dispatch.lean ====
section
/-! DEFINITION. Dispatch on the instruction (R92): one meaning for each row of the opcode table. -/
namespace Sys2Proof.Machine

def exec (i : Instr) (s : State) : Host.Outcome State Fault Refusal :=
  match i with
  | .load f => Sys2Proof.Machine.execLoad f s
  | .store f => Sys2Proof.Machine.execStore f s
  | .add f => Sys2Proof.Machine.execAdd f s
  | .jmp f => Sys2Proof.Machine.execJmp f s
  | .jmpt f => Sys2Proof.Machine.execJmpt f s
  | .jmpf f => Sys2Proof.Machine.execJmpf f s
  | .call f => Sys2Proof.Machine.execCall f s
  | .exop f => Sys2Proof.Machine.execExop f s
  | .unknown fn f => Sys2Proof.Machine.execUnknown fn f s

end Sys2Proof.Machine
end

