-- ==== Sys2Proof/Machine/Engine.lean ====
section
/-! DEFINITION. The fetch-decode-execute engine: the step checks in their order (R80-R85, R163), the outcome a step
returns to the host (R95), and placing an instruction where the next step fetches it. -/
namespace Sys2Proof.Machine

/-- The finite budget is exhausted (R81). -/
abbrev Block.budgetSpent {w : Nat} (b : Block w) : Prop :=
  b.cfg.stepBudget ≠ -1 ∧ b.cfg.stepBudget ≤ (b.stepsTaken : Int)

/-- The block is frozen by a fatal fault (R165). -/
abbrev Block.frozen {w : Nat} (b : Block w) : Prop := b.fault.kind.isFatal = true

/-- The instruction word the step fetches, `core[pc0]` (R84). -/
def Block.opcodeWord {w : Nat} (b : Block w) : Word w := b.readWord b.regs.pc

/-- The instruction at pc, decoded under the block's FN_CODE (R85, R92). -/
def State.fetched (s : State) : Instr := decode s.block.cfg.fnCode s.block.opcodeWord

/-- A machine with another block of its width, as the next state. -/
def State.goTo (s : State) (b : Block s.wordBits) : Host.Outcome State Fault Refusal :=
  .next { wordBits := s.wordBits, block := b }

/-- One step (R80), its checks in the order of R163: frozen, budget, halted, pc range, then the
instruction. `run` is the dispatch. -/
def engineStep (run : Instr → State → Host.Outcome State Fault Refusal) (s : State) :
    Host.Outcome State Fault Refusal :=
  if s.block.frozen then
    .fault (.frozen s.block.fault.kind s.block.fault.addr s.block.fault.pc.toNat)
  else if s.block.budgetSpent then
    s.goTo (s.block.raise .stepLimitExceeded s.block.regs.pc.toNat)
  else if s.block.halted then
    s.goTo s.block.countStep
  else if s.block.inCore s.block.regs.pc then
    run s.fetched s
  else
    s.goTo (s.block.raise .programCounterOutOfRange s.block.regs.pc.toNat)

/-- Dispatch with EXOP under any hook (R10, R126). -/
def execWith (hook : ExopHook) (i : Instr) (s : State) : Host.Outcome State Fault Refusal :=
  match i with
  | .exop f => execExopWith hook f s
  | .load f => exec (.load f) s
  | .store f => exec (.store f) s
  | .add f => exec (.add f) s
  | .jmp f => exec (.jmp f) s
  | .jmpt f => exec (.jmpt f) s
  | .jmpf f => exec (.jmpf f) s
  | .call f => exec (.call f) s
  | .unknown fn f => exec (.unknown fn f) s

/-- One step of a block built with any EXOP hook. -/
def stepWith (hook : ExopHook) (s : State) : Host.Outcome State Fault Refusal :=
  engineStep (execWith hook) s

/-- What a step transaction returns to the host (R95). -/
inductive StepOutcome
  | ok
  | haltedNoop
  | softUnknownFunction
  | fault (kind : FaultKind) (addr : Nat) (pc : Nat)
deriving DecidableEq, Repr

/-- The outcome of a step that started halted or not and ended in `t` (R95): a fatal fault was raised
now; the step was a halted no-op; it halted the block; or its operation completed. -/
def outcomeOf (wasHalted : Bool) (t : State) : StepOutcome :=
  if t.block.frozen then .fault t.block.fault.kind t.block.fault.addr t.block.fault.pc.toNat
  else if wasHalted then .haltedNoop
  else if t.block.halted then .softUnknownFunction
  else .ok

/-- What the step transaction answers the host, read from what the step did (R13, R95, log 4). A
refused step has none; no step is refused. -/
def outcomeFor (s : State) : Host.Outcome State Fault Refusal → Option StepOutcome
  | .next t => some (outcomeOf s.block.halted t)
  | .fault (.frozen kind addr pc) => some (.fault kind addr pc)
  | .refused _ => none

/-- A core write where the address is a core address. -/
def Block.placeWord {w : Nat} (b : Block w) (addr v : Word w) : Block w :=
  if b.inCore addr then b.writeWord addr v else b

/-- The host writes the two words of an instruction at pc and pc +w 1; `v` holds the first word in its
low w bits and the operand word above them (R13, R36, R61). -/
def State.placeInstruction (s : State) (v : Nat) : State :=
  { s with
    block :=
      (s.block.placeWord s.block.regs.pc (BitVec.ofNat s.wordBits v)).placeWord
        (s.block.regs.pc + 1) (BitVec.ofNat s.wordBits (v / 2 ^ s.wordBits)) }

end Sys2Proof.Machine
end

