-- ==== Sys2Proof/Machine/Step.lean ====
section
/-! DEFINITION. The step (R80) and the placing of an instruction where it fetches. -/
namespace Sys2Proof.Machine

/-- One step transaction of the block, with the default EXOP hook (R80). -/
def step : State → Host.Outcome State Fault Refusal := engineStep exec

/-- What the step transaction returns to the host (R95). -/
def stepOutcome (s : State) : Option StepOutcome := outcomeFor s (step s)

/-- `s` with an instruction's low `nbits` bits, zero above them, in the words at pc and pc +w 1. It
stands for the host's load of a program (R36, R182, log 16), and changes core only. -/
def State.withFetchWord (s : State) (nbits w : Nat) : State := s.placeInstruction (w % 2 ^ nbits)

end Sys2Proof.Machine
end

