-- ==== Sys2Proof/Machine/HostPort.lean ====
section
/-! DEFINITION. The host's transactions other than `step`: construction, reset, and access to core, registers and
status between steps (R13, R19, R36, R180, R185). -/
namespace Sys2Proof.Machine

/-- Construction: an illegal parameter is refused, and no instance exists; a legal build is reset
before it runs (R19, R182). -/
def build (w : Nat) (cfg : Config) : Host.Outcome State Fault Refusal :=
  if cfg.legal w then .next { wordBits := w, block := Block.resetOf w cfg }
  else .refused .illegalParameter

/-- `reset`: every piece of state at its reset value; the construction values stay (R13, R180). It
leaves a frozen or halted block too. -/
def hostReset (s : State) : State := { s with block := s.block.resetAgain }

/-- The registers a host names (R13). -/
inductive RegName
  | pc | d | p | g | a | b
deriving DecidableEq, Repr

/-- `x[r]` (R17). -/
def Block.readReg {w : Nat} (b : Block w) : RegName → Word w
  | .pc => b.regs.pc
  | .d => b.regs.d
  | .p => b.regs.p
  | .g => b.regs.g
  | .a => b.regs.a
  | .b => b.regs.b

/-- `r <- v` (R17). -/
def Block.writeReg {w : Nat} (b : Block w) (r : RegName) (v : Word w) : Block w :=
  match r with
  | .pc => b.setPc v
  | .d => b.setD v
  | .p => b.setP v
  | .g => b.setG v
  | .a => b.setA v
  | .b => b.setB v

/-- No step has been performed since reset: every step either counts itself or leaves a fault record
(R29, R93). DEDUCED (log 13). -/
abbrev Block.beforeFirstStep {w : Nat} (b : Block w) : Prop :=
  b.stepsTaken = 0 ∧ b.fault.kind = .none

/-- `host_write_core(addr, word)`, between steps, for a core address (R13, R47). Any other address is
outside the interface (log 13). -/
def hostWriteCore (s : State) (addr : Nat) (v : Word s.wordBits) :
    Host.Outcome State Fault Refusal :=
  if addr < s.block.cfg.coreSize then s.goTo { s.block with core := s.block.core.write addr v }
  else .refused .outsideInterface

/-- `host_write_reg(r, word)`, legal between reset and the first step only (R13, R36, R185). -/
def hostWriteReg (s : State) (r : RegName) (v : Word s.wordBits) :
    Host.Outcome State Fault Refusal :=
  if s.block.beforeFirstStep then s.goTo (s.block.writeReg r v) else .refused .outsideInterface

/-- `host_read_core(addr)` (R13): no side effect; `none` at an address that is no core address. -/
def hostReadCore (s : State) (addr : Nat) : Option (Word s.wordBits) :=
  if addr < s.block.cfg.coreSize then some (s.block.core.read addr) else none

/-- `host_read_reg(r)` (R13): no side effect. -/
def hostReadReg (s : State) (r : RegName) : Word s.wordBits := s.block.readReg r

/-- What `host_read_status` returns (R13). -/
structure HostStatus (w : Nat) where
  halted : Bool
  stepsTaken : Nat
  fault : FaultRecord w
deriving DecidableEq, Repr

/-- `host_read_status` (R13, R33): no side effect. -/
def hostReadStatus (s : State) : HostStatus s.wordBits :=
  { halted := s.block.halted, stepsTaken := s.block.stepsTaken, fault := s.block.fault }

/-- The construction values, for the host only (R31, R33). R33 lets the host read TRACE_LEVEL and
STEP_BUDGET, and R13's table has no transaction that returns them: the model gives them a read of
their own, with no side effect, which returns CORE_SIZE and FN_CODE as well. DESIGN CHOICE (log 32),
safe. -/
def hostReadConfig (s : State) : Config := s.block.cfg

end Sys2Proof.Machine
end

