-- ==== Sys2Proof/Machine/Trace.lean ====
section
/-! DEFINITION. The trace port (R14, R149): events for the host, with no architectural effect. They are outputs of a
transaction, computed beside the next state and held in no field of State (log 10). -/
namespace Sys2Proof.Machine

/-- What an event carries (R14): the program counter, the raw word, its decoded function and modifier
bits, and for a loader event the destination address and the emitted word. R24 names the trace port
as a place where D is visible and R14's list has no D: the model's events carry none. DESIGN CHOICE
(log 29), safe. -/
structure TraceEvent (w : Nat) where
  kind : TraceKind
  pc : Word w
  word : Word w
  decoded : Decoded
  loaded : Option (Nat × Word w)
deriving DecidableEq, Repr

/-- The event of the word about to execute (§4.3 step 4, R84). -/
def executeEvent {w : Nat} (b : Block w) : TraceEvent w :=
  { kind := .execute, pc := b.regs.pc, word := b.opcodeWord, decoded := splitWord b.opcodeWord,
    loaded := none }

/-- The warning an EXOP emits under the default hook (R14, R125). The spec gives neither the point nor
the program counter of the warning: here it comes once the effective-address unit has raised nothing
(log 10) and carries pc0, as the word's own event does, and not the pc past the word or words.
DESIGN CHOICE (log 27), safe. -/
def exopWarnings {w : Nat} (b : Block w) : List (TraceEvent w) :=
  match decode b.cfg.fnCode b.opcodeWord with
  | .exop f =>
    match effectiveAddress f b.advancePc with
    | .done _ => [{ executeEvent b with kind := .exopWarning }]
    | .raised _ _ => []
  | .load _ => []
  | .store _ => []
  | .add _ => []
  | .jmp _ => []
  | .jmpt _ => []
  | .jmpf _ => []
  | .call _ => []
  | .unknown _ _ => []

/-- The events one step can emit: none unless a word is executed, then the word's event before its
fetch, then, where the hook warns, EXOP's warning (R14). The default hook warns; whether another one
does the spec does not say, so it is the argument `warns`, which a claim leaves free. DESIGN CHOICE
(log 28), safe. -/
def stepEventsWith {w : Nat} (warns : Bool) (b : Block w) : List (TraceEvent w) :=
  if b.frozen then []
  else if b.budgetSpent then []
  else if b.halted then []
  else if b.inCore b.regs.pc then executeEvent b :: if warns then exopWarnings b else []
  else []

/-- The events one step can emit under the default hook, which warns (R14, R125). -/
def stepEvents {w : Nat} (b : Block w) : List (TraceEvent w) := stepEventsWith true b

/-- The events the trace level lets through: which ones it does is free (R14, D13, log 10). -/
def emitted {w : Nat} (b : Block w) (events : List (TraceEvent w)) : List (TraceEvent w) :=
  events.filter fun e => Config.traceEmits b.cfg.traceLevel e.kind

/-- What the trace port shows for one step under a hook that warns or does not (log 28). -/
def stepTraceWith (warns : Bool) (s : State) : List (TraceEvent s.wordBits) :=
  emitted s.block (stepEventsWith warns s.block)

/-- What the trace port shows for one step under the default hook. -/
def stepTrace (s : State) : List (TraceEvent s.wordBits) := emitted s.block (stepEvents s.block)

end Sys2Proof.Machine
end

