-- ==== Sys2Proof/Machine/Loader.lean ====
section
/-! DEFINITION. The host-side textual loader (48_loader.md): one function of the text (R147), which writes core and
runs no step (R135). The text is the list of its characters (log 14). -/
namespace Sys2Proof.Machine

/-- The loader's own state (R136), the core it writes, and the words it has emitted, oldest first
(R149). `run` holds the values of the hex digits collected so far. -/
structure LoaderState (w : Nat) where
  cursor : Nat
  mods : Fields
  run : List Nat
  inComment : Bool
  core : Memory w
  emitted : List (Nat × Word w)
deriving DecidableEq, Repr

/-- Where a load stands: going on, or ended by LoaderOverflow at an address (R145). -/
inductive LoaderRun (w : Nat)
  | running (l : LoaderState w)
  | overflow (l : LoaderState w) (addr : Nat)
deriving DecidableEq, Repr

/-- Any overflow ends the load (R147). -/
def LoaderRun.andThen {w : Nat} (r : LoaderRun w) (rest : LoaderState w → LoaderRun w) :
    LoaderRun w :=
  match r with
  | .running l => rest l
  | .overflow l addr => .overflow l addr

/-- No modifier pending (R136). -/
def noMods : Fields := { dBit := false, pBit := false, gBit := false, iBit := false, dispField := 0 }

/-- MAXRUN = 2 ceil(w/4) (R139). -/
def maxRun (w : Nat) : Nat := 2 * ((w + 3) / 4)

/-- The value of a hex digit, decimal or uppercase A-F only (R139). PRESUMED (log 14), safe: the spec
takes the digit values from general knowledge. -/
def hexDigit (c : Char) : Option Nat :=
  if 48 ≤ c.toNat ∧ c.toNat ≤ 57 then some (c.toNat - 48)
  else if 65 ≤ c.toNat ∧ c.toNat ≤ 70 then some (c.toNat - 55)
  else none

/-- The number a run of digits spells (R139). -/
def hexValue (digits : List Nat) : Nat := digits.foldl (fun n d => 16 * n + d) 0

/-- The operation of a mnemonic letter (R142). -/
def opOfLetter (c : Char) : Option Op :=
  if c = 'a' then some .add
  else if c = 'f' then some .jmpf
  else if c = 'j' then some .jmp
  else if c = 'k' then some .call
  else if c = 'l' then some .load
  else if c = 's' then some .store
  else if c = 't' then some .jmpt
  else if c = 'x' then some .exop
  else none

/-- The pending modifiers after a modifier letter; `none` for any other character (R141). -/
def modsAfter (m : Fields) (c : Char) : Option Fields :=
  if c = 'd' then some { m with dBit := true }
  else if c = 'p' then some { m with pBit := true }
  else if c = 'g' then some { m with gBit := true }
  else if c = 'i' then some { m with iBit := true }
  else none

/-- `Emit(v)` (R144): a word that would land outside core is the overflow, and is not written. -/
def emitWord {w : Nat} (coreSize : Nat) (l : LoaderState w) (v : Word w) : LoaderRun w :=
  if l.cursor < coreSize then
    .running { l with
      core := l.core.write l.cursor v
      cursor := l.cursor + 1
      emitted := l.emitted ++ [(l.cursor, v)] }
  else .overflow l l.cursor

/-- Emit a pending hex run, its value modulo 2^w (R139, R146, C8). -/
def flushRun {w : Nat} (coreSize : Nat) (l : LoaderState w) : LoaderRun w :=
  if l.run = [] then .running l
  else emitWord coreSize { l with run := [] } (BitVec.ofNat w (hexValue l.run))

/-- A character that is no hex digit, outside a comment and with no run pending (R138, R141-R143). -/
def tokenChar {w : Nat} (cfg : Config) (l : LoaderState w) (c : Char) : LoaderRun w :=
  if c = ';' then .running { l with inComment := true }
  else
    match modsAfter l.mods c with
    | some m => .running { l with mods := m }
    | none =>
      match opOfLetter c with
      | some op =>
        (emitWord cfg.coreSize l (encode w cfg.fnCode (op.instr l.mods))).andThen
          fun l => .running { l with mods := noMods }
      | none => .running l

/-- One character of the text (R147): a comment runs through its line feed (R138); a run is cut at
MAXRUN digits (R140); any other character ends a pending run (R137, R139, R143). -/
def loadChar {w : Nat} (cfg : Config) (l : LoaderState w) (c : Char) : LoaderRun w :=
  if l.inComment then
    if c = '\n' then .running { l with inComment := false } else .running l
  else
    match hexDigit c with
    | some n =>
      if (l.run ++ [n]).length = maxRun w then
        flushRun cfg.coreSize { l with run := l.run ++ [n] }
      else .running { l with run := l.run ++ [n] }
    | none => (flushRun cfg.coreSize l).andThen fun l => tokenChar cfg l c

/-- The whole text; at its end a pending run is emitted and pending modifiers are dropped (R146). -/
def loadChars {w : Nat} (cfg : Config) : List Char → LoaderState w → LoaderRun w
  | [], l => flushRun cfg.coreSize l
  | c :: rest, l => (loadChar cfg l c).andThen (loadChars cfg rest)

/-- The loader at the start of a text (R136). -/
def loaderStart {w : Nat} (start : Nat) (core : Memory w) : LoaderState w :=
  { cursor := start, mods := noMods, run := [], inComment := false, core := core, emitted := [] }

/-- What Load returns (R135): the number of words emitted, or LoaderOverflow at an address. It is the
loader's result and never enters the block's fault record (R145). -/
inductive LoadResult
  | ok (nWords : Nat)
  | loaderOverflow (addr : Nat)
deriving DecidableEq, Repr

/-- The loader's final state and result. -/
def LoaderRun.finish {w : Nat} (start : Nat) : LoaderRun w → LoaderState w × LoadResult
  | .running l => (l, .ok (l.cursor - start))
  | .overflow l addr => (l, .loaderOverflow addr)

/-- The run of the loader over a text, from the machine's core. -/
def loaderRun (text : List Char) (start : Nat) (s : State) : LoaderState s.wordBits × LoadResult :=
  (loadChars s.block.cfg text (loaderStart start s.block.core)).finish start

/-- `Load(text, start)` (R135): the machine with the emitted words in core, those before an overflow
too (R145), and the result. -/
def load (text : List Char) (start : Nat) (s : State) : State × LoadResult :=
  ({ s with block := { s.block with core := (loaderRun text start s).1.core } },
    (loaderRun text start s).2)

/-- The trace event of an emitted word (R14, R149): its destination address and the word. R14 gives every
event a program counter, a raw word and decoded bits too and does not say which ones a loader event
has: here they are the block's pc register, the emitted word itself, and that word split. DESIGN CHOICE
(log 31), safe for architectural state. -/
def loaderEvent {w : Nat} (b : Block w) (e : Nat × Word w) : TraceEvent w :=
  { kind := .loaderEmit, pc := b.regs.pc, word := e.2, decoded := splitWord e.2, loaded := some e }

/-- What the trace port shows for a load: one event for each emitted word, as the trace level lets
them through (R149, log 10). -/
def loadTrace (text : List Char) (start : Nat) (s : State) : List (TraceEvent s.wordBits) :=
  emitted s.block ((loaderRun text start s).1.emitted.map (loaderEvent s.block))

end Sys2Proof.Machine
end

