-- ==== Sys2Proof/Safety.lean ====
section
/-! DEFINITION. The terms claims use: the effective-address unit's result in one formula, when its operands are
readable, the invariant of the block, and runs of given instructions. -/
namespace Sys2Proof.Machine

/-! ### The effective-address unit in one formula (R86-R89), for a block at the start of its step -/

/-- The base: the operand word at pc0 +w 1, or pc0 +w 1 +w the signed inline displacement (R86). -/
def baseOf {w : Nat} (f : Fields) (b : Block w) : Word w :=
  if f.dBit then b.core.read (b.regs.pc + 1).toNat else b.regs.pc + 1 + sextDisp w f.dispField

/-- The base with P and G added as the modifier bits say (R88). -/
def indexedOf {w : Nat} (f : Fields) (b : Block w) : Word w :=
  baseOf f b + (if f.pBit then b.regs.p else 0) + (if f.gBit then b.regs.g else 0)

/-- The value the unit leaves in D (R89, R90). -/
def operandOf {w : Nat} (f : Fields) (b : Block w) : Word w :=
  if f.iBit then b.core.read (indexedOf f b).toNat else indexedOf f b

/-- The fall-through address: past one word, or two with the D bit (R84, R86). -/
def fallThroughOf {w : Nat} (f : Fields) (b : Block w) : Word w :=
  if f.dBit then b.regs.pc + 1 + 1 else b.regs.pc + 1

/-- The operand word, where there is one, is in core (R87). -/
abbrev operandWordInCore {w : Nat} (f : Fields) (b : Block w) : Prop :=
  f.dBit = true → b.inCore (b.regs.pc + 1)

/-- The pointer, where there is one, is in core (R89). -/
abbrev pointerInCore {w : Nat} (f : Fields) (b : Block w) : Prop :=
  f.iBit = true → b.inCore (indexedOf f b)

/-- The unit raises nothing (R87, R89). -/
abbrev readable {w : Nat} (f : Fields) (b : Block w) : Prop :=
  operandWordInCore f b ∧ pointerInCore f b

/-- The address of CALL's first frame word, the unit's result plus P (R110). -/
def frameOf {w : Nat} (f : Fields) (b : Block w) : Word w := operandOf f b + b.regs.p

/-- The registers after the effective-address unit (R86-R90). -/
def regsAfterUnit {w : Nat} (f : Fields) (b : Block w) : Regs w :=
  { b.regs with pc := fallThroughOf f b, d := operandOf f b }

/-! ### What an instruction may store to, and which faults it may raise -/

/-- The core addresses an instruction stores to (R44): STORE's D, CALL's two frame words, and none for
any other. EXOP stores nothing under the default hook. -/
def storedAt {w : Nat} (b : Block w) : Instr → List Nat
  | .store f => [(operandOf f b).toNat]
  | .call f => [(frameOf f b).toNat, (frameOf f b + 1).toNat]
  | .load _ => []
  | .add _ => []
  | .jmp _ => []
  | .jmpt _ => []
  | .jmpf _ => []
  | .exop _ => []
  | .unknown _ _ => []

/-- The fault an instruction's own arm can raise, beyond the effective-address unit's (R162). -/
def armFault : Instr → FaultKind → Bool
  | .store _, k => k == .storeAddressOutOfRange
  | .call _, k => k == .callFrameOutOfRange
  | .unknown _ _, k => k == .unknownFunction
  | .load _, _ => false
  | .add _, _ => false
  | .jmp _, _ => false
  | .jmpt _, _ => false
  | .jmpf _, _ => false
  | .exop _, _ => false

/-- The faults an executed instruction can record (R162). -/
def mayRecord (i : Instr) (k : FaultKind) : Bool :=
  (i.fields.dBit && k == .programCounterOutOfRange) ||
    (i.fields.iBit && k == .indirectAddressOutOfRange) || armFault i k

/-- The D-bit form with the other modifiers clear: an immediate operand word (R100, R103). -/
def immediateForm : Fields :=
  { dBit := true, pBit := false, gBit := false, iBit := false, dispField := 0 }

/-- The D, P and I bits: a jump with it and operand word 1 is the return jump (R116). -/
def frameSlotForm : Fields :=
  { dBit := true, pBit := true, gBit := false, iBit := true, dispField := 0 }

/-- The dispatch arm of an instruction under any EXOP hook, for a step that started at `pc0` (R92, R126). -/
def armWith {w : Nat} (hook : ExopHook) (pc0 : Word w) : Instr → Block w → Attempt w
  | .load _ => loadArm
  | .store _ => storeArm
  | .add _ => addArm
  | .jmp _ => jmpArm
  | .jmpt _ => jmptArm
  | .jmpf _ => jmpfArm
  | .call _ => callArm
  | .exop f => fun b => .done (applyHook hook f b)
  | .unknown _ _ => unknownArm pc0

/-- What executing an instruction computes before it commits: the effective-address unit past the
opcode word, then the arm (R84, R91, R92). -/
def attemptWith {w : Nat} (hook : ExopHook) (i : Instr) (b : Block w) : Attempt w :=
  (effectiveAddress i.fields b.advancePc).andThen (armWith hook b.regs.pc i)

/-! ### The loader's tokens (48_loader.md R137-R143) -/

/-- The hex digit characters in the order of their values (R139). -/
def hexDigits : List Char :=
  ['0', '1', '2', '3', '4', '5', '6', '7', '8', '9', 'A', 'B', 'C', 'D', 'E', 'F']

/-- The characters that spell a run of digits. -/
def spells (digits : List (Fin 16)) : List Char := digits.map fun d => hexDigits.getD d.val '0'

/-- The mnemonic letters and their operations (R142). -/
def mnemonicLetters : List (Char × Op) :=
  [('a', .add), ('f', .jmpf), ('j', .jmp), ('k', .call), ('l', .load), ('s', .store), ('t', .jmpt),
    ('x', .exop)]

/-- A character of none of the tokens (R143), whitespace among them (R137). -/
abbrev isIgnored (c : Char) : Prop :=
  c ∉ hexDigits ∧ c ≠ ';' ∧ c ∉ ['g', 'd', 'i', 'p'] ∧ ∀ op, (c, op) ∉ mnemonicLetters

/-- The loader is outside a comment and no run is pending; the pending modifiers may be any. -/
abbrev LoaderState.betweenTokens {w : Nat} (l : LoaderState w) : Prop :=
  l.run = [] ∧ l.inComment = false ∧ l.mods.dispField = 0

/-- How a load goes on when a token emits `v` and leaves the modifiers `m`: the word stands at the
cursor and the rest is loaded, or the load ends with LoaderOverflow at the cursor (R144). -/
def emitThen {w : Nat} (cfg : Config) (l : LoaderState w) (v : Word w) (m : Fields)
    (rest : List Char) : LoaderRun w :=
  if l.cursor < cfg.coreSize then
    loadChars cfg rest { l with
      core := l.core.write l.cursor v
      cursor := l.cursor + 1
      emitted := l.emitted ++ [(l.cursor, v)]
      mods := m }
  else .overflow l l.cursor

/-! ### The invariant of the block -/

/-- The address faults, which name an address outside core (R45, R160). -/
def FaultKind.isAddressFault (k : FaultKind) : Bool :=
  k == .programCounterOutOfRange || k == .indirectAddressOutOfRange ||
    k == .storeAddressOutOfRange || k == .callFrameOutOfRange

/-- The fault record says what R30, R160 and R164 let it say: no fault is (0, 0, 0); UnknownFunction
and StepLimitExceeded name pc0; an address fault names a word address outside core; the block never
records the loader's or construction's kinds; a frozen block still has pc = pc0 (R93). -/
abbrev Block.recordOk {w : Nat} (b : Block w) : Prop :=
  (b.fault.kind = .none → b.fault = FaultRecord.clear) ∧
  (b.fault.kind = .unknownFunction → b.fault.addr = b.fault.pc.toNat) ∧
  (b.fault.kind = .stepLimitExceeded → b.fault.addr = b.fault.pc.toNat) ∧
  (b.fault.kind.isAddressFault = true → b.cfg.coreSize ≤ b.fault.addr ∧ b.fault.addr < 2 ^ w) ∧
  b.fault.kind ≠ .loaderOverflow ∧ b.fault.kind ≠ .allocationFailure ∧
  (b.frozen → b.fault.pc = b.regs.pc)

/-- `halted` is set by UnknownFunction alone, whose record only a spent budget replaces
(R28, R30, R81, R128). -/
abbrev Block.haltedOk {w : Nat} (b : Block w) : Prop :=
  (b.fault.kind = .unknownFunction → b.halted = true) ∧
  (b.halted = true → b.fault.kind = .unknownFunction ∨ b.fault.kind = .stepLimitExceeded)

/-- A finite budget is never overrun, and StepLimitExceeded is recorded only when it is spent (R81). -/
abbrev Block.budgetOk {w : Nat} (b : Block w) : Prop :=
  (b.cfg.stepBudget ≠ -1 → (b.stepsTaken : Int) ≤ b.cfg.stepBudget) ∧
  (b.fault.kind = .stepLimitExceeded → b.budgetSpent)

/-- The block's invariant: legal parameters (R19), core in its canonical form within CORE_SIZE (R34),
a fault record, a halted flag and a step count as the rules leave them. -/
abbrev Block.Inv {w : Nat} (b : Block w) : Prop :=
  b.cfg.legal w ∧ b.core.wf b.cfg.coreSize = true ∧ b.recordOk ∧ b.haltedOk ∧ b.budgetOk

/-- The invariant of the machine. -/
abbrev State.Inv (s : State) : Prop := s.block.Inv

/-- The block can execute the word at pc: no check before the fetch stops it (R80, R163). -/
abbrev State.ready (s : State) : Prop :=
  ¬ s.block.frozen ∧ ¬ s.block.budgetSpent ∧ s.block.halted = false ∧ s.block.inCore s.block.regs.pc

/-- Run given instructions one after the other. -/
def execAll : List Instr → State → Host.Outcome State Fault Refusal
  | [], s => .next s
  | i :: rest, s =>
    match exec i s with
    | .next t => execAll rest t
    | .fault r => .fault r
    | .refused r => .refused r

end Sys2Proof.Machine
end

