-- ==== Sys2Proof/Certificates/Slice0/Obligations.lean ====
section
/-! DEFINITION. The statements for the provers. Each is over every word width and every configuration of a state
unless it says otherwise; `⟨w, b⟩` is the machine of width `w` with block `b`. -/

open Sys2Proof Sys2Proof.Machine

/-! ### Encoding (30_encoding.md) -/

/-- R64, R65, R92: decoding the word of a well-formed instruction gives the instruction, for every
operation, every modifier combination and every displacement, at every legal width and FN_CODE. -/
def Obligations.DecodeOfEncodeIsTheInstruction : Prop :=
  ∀ (w : Nat) (fc : FnCode) (i : Instr), 8 ≤ w → fc.injective → i.wf w fc = true →
    decode fc (encode w fc i) = i

/-- R65: the packed word is the sum the rule writes, which is also the OR and the XOR of its disjoint
fields, and the codec loses nothing in either direction, whatever the D bit is. -/
def Obligations.CodecPacksTheSumAndLosesNothing : Prop :=
  ∀ (w : Nat), 8 ≤ w →
    (∀ t : Decoded, t.fields.wf w = true →
      (packWord w t).toNat =
        t.fields.dBit.toNat * 2 ^ (w - 1) + t.fields.pBit.toNat * 2 ^ (w - 2)
          + t.fields.gBit.toNat * 2 ^ (w - 3) + t.fields.iBit.toNat * 2 ^ (w - 4)
          + t.fields.dispField * 2 ^ 4 + t.fn.toNat ∧
      (packWord w t).toNat =
        t.fields.dBit.toNat * 2 ^ (w - 1) ||| t.fields.pBit.toNat * 2 ^ (w - 2)
          ||| t.fields.gBit.toNat * 2 ^ (w - 3) ||| t.fields.iBit.toNat * 2 ^ (w - 4)
          ||| t.fields.dispField * 2 ^ 4 ||| t.fn.toNat ∧
      (packWord w t).toNat =
        t.fields.dBit.toNat * 2 ^ (w - 1) ^^^ t.fields.pBit.toNat * 2 ^ (w - 2)
          ^^^ t.fields.gBit.toNat * 2 ^ (w - 3) ^^^ t.fields.iBit.toNat * 2 ^ (w - 4)
          ^^^ t.fields.dispField * 2 ^ 4 ^^^ t.fn.toNat) ∧
    (∀ ir : Word w, packWord w (splitWord ir) = ir) ∧
    (∀ t : Decoded, t.fields.wf w = true → splitWord (packWord w t) = t)

/-- R64, R85: every word decodes to a well-formed instruction, whose encoding is that word. -/
def Obligations.EveryWordDecodesAndEncodesBack : Prop :=
  ∀ (w : Nat) (fc : FnCode) (ir : Word w), 8 ≤ w →
    (decode fc ir).wf w fc = true ∧ encode w fc (decode fc ir) = ir

/-- R92: under an injective FN_CODE, a code that the map gives an operation selects it, and a code that
the map gives none is unknown. -/
def Obligations.FunctionCodeSelectsTheOperation : Prop :=
  ∀ (w : Nat) (fc : FnCode) (ir : Word w), fc.injective →
    (∀ op : Op, (splitWord ir).fn = fc.codeOf op → decode fc ir = op.instr (splitWord ir).fields) ∧
    ((∀ op : Op, (splitWord ir).fn ≠ fc.codeOf op) →
      decode fc ir = .unknown (splitWord ir).fn (splitWord ir).fields)

/-- R63, R67 (the default FN_CODE is the spec's default, log 1): the codes with bit 3 set, and no
others, are unknown. -/
def Obligations.UnknownCodesAreThoseWithBitThreeSet : Prop :=
  ∀ (w : Nat) (ir : Word w), 8 ≤ w →
    (ir.getLsbD 3 = true ↔ ∃ fn f, decode FnCode.standard ir = .unknown fn f)

/-- R16, R62: the inline displacement is the two's complement value of its w-8-bit field; at w = 8 the
field is empty and its value is 0. -/
def Obligations.InlineDisplacementIsTwosComplement : Prop :=
  (∀ n, sextDisp 8 n = 0) ∧
  ∀ w n : Nat, 8 < w → n < 2 ^ (w - 8) →
    (sextDisp w n).toInt = if n < 2 ^ (w - 9) then (n : Int) else (n : Int) - 2 ^ (w - 8)

/-- R63, R72 and 95_test_vectors.md 2.1: words written out from the encoding decode to the
instructions they stand for. -/
def Obligations.SampleWordsDecode : Prop :=
  decode FnCode.standard (0x00 : Word 8) = .load ⟨false, false, false, false, 0⟩ ∧
  decode FnCode.standard (0x81 : Word 8) = .store ⟨true, false, false, false, 0⟩ ∧
  decode FnCode.standard (0xF2 : Word 8) = .add ⟨true, true, true, true, 0⟩ ∧
  decode FnCode.standard (0x0FF3 : Word 16) = .jmp ⟨false, false, false, false, 0xFF⟩ ∧
  decode FnCode.standard (0x8FF6 : Word 16) = .call ⟨true, false, false, false, 0xFF⟩ ∧
  decode FnCode.standard (0x9F : Word 8) = .unknown 15 ⟨true, false, false, true, 0⟩

/-! ### The effective-address unit (40_engine.md) -/

/-- R86, R88, R89: with pc past the opcode word, the unit leaves the base, plus P and G as their bits
say, through at most one indirection, in D, advances pc over an operand word, and changes nothing
else; or it raises at the operand word or at the pointer that is outside core. -/
def Obligations.EffectiveAddressUnitResult : Prop :=
  ∀ (w : Nat) (b : Block w) (f : Fields),
    effectiveAddress f b.advancePc =
      if operandWordInCore f b then
        if pointerInCore f b then .done { b with regs := regsAfterUnit f b }
        else .raised .indirectAddressOutOfRange (indexedOf f b).toNat
      else .raised .programCounterOutOfRange (b.regs.pc + 1).toNat

/-- R87, R91: for every function code, an operand word outside core raises ProgramCounterOutOfRange at
pc0 +w 1 with the record's pc at pc0, and nothing else changes. -/
def Obligations.OperandFetchFaultsForEveryInstruction : Prop :=
  ∀ (w : Nat) (b : Block w) (i : Instr),
    i.fields.dBit = true → ¬ b.inCore (b.regs.pc + 1) →
    exec i ⟨w, b⟩ =
      .next ⟨w, { b with fault := ⟨.programCounterOutOfRange, (b.regs.pc + 1).toNat, b.regs.pc⟩ }⟩

/-- R89, R91: for every function code, a pointer outside core raises IndirectAddressOutOfRange at the
indexed address, and nothing else changes: an unknown code then does not halt. -/
def Obligations.IndirectionFaultsForEveryInstruction : Prop :=
  ∀ (w : Nat) (b : Block w) (i : Instr),
    operandWordInCore i.fields b → i.fields.iBit = true → ¬ b.inCore (indexedOf i.fields b) →
    exec i ⟨w, b⟩ =
      .next ⟨w, { b with
        fault := ⟨.indirectAddressOutOfRange, (indexedOf i.fields b).toNat, b.regs.pc⟩ }⟩

/-! ### The instructions: the whole next state, where the operands are readable -/

/-- R101: LOAD pushes D into the pair A, B; pc and D are the unit's; nothing else changes. -/
def Obligations.LoadPushesTheOperand : Prop :=
  ∀ (w : Nat) (b : Block w) (f : Fields), readable f b →
    exec (.load f) ⟨w, b⟩ =
      .next ⟨w, { b with
        regs := { b.regs with
          pc := fallThroughOf f b, d := operandOf f b, a := operandOf f b, b := b.regs.a }
        stepsTaken := b.stepsTaken + 1 }⟩

/-- R100, R102: ADD adds D to A modulo 2^w and records no carry; nothing else changes. -/
def Obligations.AddAddsTheOperandModuloTheWord : Prop :=
  ∀ (w : Nat) (b : Block w) (f : Fields), readable f b →
    ∃ r : Word w, r.toNat = (b.regs.a.toNat + (operandOf f b).toNat) % 2 ^ w ∧
      exec (.add f) ⟨w, b⟩ =
        .next ⟨w, { b with
          regs := { b.regs with pc := fallThroughOf f b, d := operandOf f b, a := r }
          stepsTaken := b.stepsTaken + 1 }⟩

/-- R111: JMP sets pc to D, in core or not; nothing else changes. -/
def Obligations.JmpGoesToTheOperand : Prop :=
  ∀ (w : Nat) (b : Block w) (f : Fields), readable f b →
    exec (.jmp f) ⟨w, b⟩ =
      .next ⟨w, { b with
        regs := { b.regs with pc := operandOf f b, d := operandOf f b }
        stepsTaken := b.stepsTaken + 1 }⟩

/-- R112: JMPT goes to D exactly when A is not zero; D holds the target either way. -/
def Obligations.JmptJumpsWhenTheAccumulatorIsNonzero : Prop :=
  ∀ (w : Nat) (b : Block w) (f : Fields), readable f b →
    exec (.jmpt f) ⟨w, b⟩ =
      .next ⟨w, { b with
        regs := { b.regs with
          pc := if b.regs.a = 0 then fallThroughOf f b else operandOf f b, d := operandOf f b }
        stepsTaken := b.stepsTaken + 1 }⟩

/-- R113: JMPF goes to D exactly when A is zero; D holds the target either way. -/
def Obligations.JmpfJumpsWhenTheAccumulatorIsZero : Prop :=
  ∀ (w : Nat) (b : Block w) (f : Fields), readable f b →
    exec (.jmpf f) ⟨w, b⟩ =
      .next ⟨w, { b with
        regs := { b.regs with
          pc := if b.regs.a = 0 then operandOf f b else fallThroughOf f b, d := operandOf f b }
        stepsTaken := b.stepsTaken + 1 }⟩

/-- R114: of JMPT and JMPF on one state, exactly one takes its branch, and the other goes on at the
fall-through address. -/
def Obligations.JmptAndJmpfAreComplements : Prop :=
  ∀ (w : Nat) (b : Block w) (f : Fields), readable f b →
    ∃ t u : Block w, exec (.jmpt f) ⟨w, b⟩ = .next ⟨w, t⟩ ∧ exec (.jmpf f) ⟨w, b⟩ = .next ⟨w, u⟩ ∧
      t.regs.d = operandOf f b ∧ u.regs.d = operandOf f b ∧
      ((t.regs.pc = operandOf f b ∧ u.regs.pc = fallThroughOf f b ∧ b.regs.a ≠ 0) ∨
        (t.regs.pc = fallThroughOf f b ∧ u.regs.pc = operandOf f b ∧ b.regs.a = 0))

/-- R120, R121: STORE writes A, unchanged, at the address D and at no other; no register changes but pc
and D. -/
def Obligations.StoreWritesTheAccumulatorAtTheOperand : Prop :=
  ∀ (w : Nat) (b : Block w) (f : Fields), readable f b → b.inCore (operandOf f b) →
    ∃ m : Memory w,
      exec (.store f) ⟨w, b⟩ =
        .next ⟨w, { b with
          regs := regsAfterUnit f b, stepsTaken := b.stepsTaken + 1, core := m }⟩ ∧
      m.read (operandOf f b).toNat = b.regs.a ∧
      ∀ x, x ≠ (operandOf f b).toNat → m.read x = b.core.read x

/-- R120: STORE to an address outside core raises StoreAddressOutOfRange at D and writes nothing. -/
def Obligations.StoreOutsideCoreRaises : Prop :=
  ∀ (w : Nat) (b : Block w) (f : Fields), readable f b → ¬ b.inCore (operandOf f b) →
    exec (.store f) ⟨w, b⟩ =
      .next ⟨w, { b with
        fault := ⟨.storeAddressOutOfRange, (operandOf f b).toNat, b.regs.pc⟩ }⟩

/-- R110: CALL writes the old P and the return address into the two frame words at the operand plus P
(P counted again when the P bit is set), makes them the frame, and goes to A. The second word's
address wraps modulo 2^w, as the spec decides in D8 (log 12). -/
def Obligations.CallBuildsItsFrameAndGoesToTheAccumulator : Prop :=
  ∀ (w : Nat) (b : Block w) (f : Fields), 8 ≤ w → readable f b →
    b.inCore (frameOf f b) → b.inCore (frameOf f b + 1) →
    ∃ m : Memory w,
      exec (.call f) ⟨w, b⟩ =
        .next ⟨w, { b with
          regs := { b.regs with pc := b.regs.a, d := frameOf f b, p := frameOf f b }
          stepsTaken := b.stepsTaken + 1
          core := m }⟩ ∧
      m.read (frameOf f b).toNat = b.regs.p ∧
      m.read (frameOf f b + 1).toNat = fallThroughOf f b ∧
      ∀ x, x ≠ (frameOf f b).toNat → x ≠ (frameOf f b + 1).toNat → m.read x = b.core.read x

/-- R110: the first frame word outside core, D before D +w 1, raises CallFrameOutOfRange at its address,
and neither word is written. -/
def Obligations.CallFrameOutsideCoreRaises : Prop :=
  ∀ (w : Nat) (b : Block w) (f : Fields), readable f b →
    (¬ b.inCore (frameOf f b) →
      exec (.call f) ⟨w, b⟩ =
        .next ⟨w, { b with fault := ⟨.callFrameOutOfRange, (frameOf f b).toNat, b.regs.pc⟩ }⟩) ∧
    (b.inCore (frameOf f b) → ¬ b.inCore (frameOf f b + 1) →
      exec (.call f) ⟨w, b⟩ =
        .next ⟨w, { b with
          fault := ⟨.callFrameOutOfRange, (frameOf f b + 1).toNat, b.regs.pc⟩ }⟩)

/-- R115: after CALL, core[newP] is the P before the call and core[newP +w 1] is the address after the
CALL instruction, where newP is the P that CALL leaves. -/
def Obligations.CallFrameHoldsTheCallersState : Prop :=
  ∀ (w : Nat) (b : Block w) (f : Fields), 8 ≤ w → readable f b →
    b.inCore (frameOf f b) → b.inCore (frameOf f b + 1) →
    ∃ c : Block w, exec (.call f) ⟨w, b⟩ = .next ⟨w, c⟩ ∧
      c.core.read c.regs.p.toNat = b.regs.p ∧
      c.core.read (c.regs.p + 1).toNat = b.regs.pc + 1 + (if f.dBit then 1 else 0)

/-- R116: in a frame, JMP with the D, P and I bits and operand word 1 jumps to core[P +w 1], where CALL
put the return address. -/
def Obligations.ReturnJumpGoesThroughTheFrame : Prop :=
  ∀ (w : Nat) (b : Block w), b.inCore (b.regs.pc + 1) → b.core.read (b.regs.pc + 1).toNat = 1 →
    b.inCore (b.regs.p + 1) →
    exec (.jmp frameSlotForm) ⟨w, b⟩ =
      .next ⟨w, { b with
        regs := { b.regs with
          pc := b.core.read (b.regs.p + 1).toNat, d := b.core.read (b.regs.p + 1).toNat }
        stepsTaken := b.stepsTaken + 1 }⟩

/-- R125: under the default hook EXOP changes pc, D and the step count alone. -/
def Obligations.ExopIsANoOpUnderTheDefaultHook : Prop :=
  ∀ (w : Nat) (b : Block w) (f : Fields), readable f b →
    exec (.exop f) ⟨w, b⟩ =
      .next ⟨w, { b with regs := regsAfterUnit f b, stepsTaken := b.stepsTaken + 1 }⟩

/-- R126: any hook gets the registers after the effective-address unit, core and the decoded
instruction; its registers and core words, and nothing else, are committed as one step; it raises no
fault. A core word reads as the last value the hook names for it, and as before where it names none.
The step of a block built with that hook runs it. That a write named outside core is dropped is the
model's choice (log 7), and so is that one at 2^w or above is made (log 30). -/
def Obligations.ExopCommitsWhatAnyHookReturns : Prop :=
  ∀ (hook : ExopHook) (w : Nat) (b : Block w) (f : Fields), readable f b →
    ∃ m : Memory w,
      execExopWith hook f ⟨w, b⟩ =
        .next ⟨w, { b with
          regs := (hook w ⟨⟨b.cfg.fnCode.exop, f⟩, regsAfterUnit f b, b.cfg.coreSize, b.core⟩).regs
          stepsTaken := b.stepsTaken + 1
          core := m }⟩ ∧
      m = b.core.writeAll b.cfg.coreSize
        (hook w ⟨⟨b.cfg.fnCode.exop, f⟩, regsAfterUnit f b, b.cfg.coreSize, b.core⟩).writes ∧
      (∀ x,
        (∀ v, (x, v) ∉
          (hook w ⟨⟨b.cfg.fnCode.exop, f⟩, regsAfterUnit f b, b.cfg.coreSize, b.core⟩).writes) →
        m.read x = b.core.read x) ∧
      (∀ (x : Nat) (v : Word w) (before after : List (Nat × Word w)),
        (hook w ⟨⟨b.cfg.fnCode.exop, f⟩, regsAfterUnit f b, b.cfg.coreSize, b.core⟩).writes =
          before ++ (x, v) :: after →
        (∀ u, (x, u) ∉ after) → x < b.cfg.coreSize → m.read x = v) ∧
      (∀ x, b.cfg.coreSize ≤ x → m.read x = b.core.read x) ∧
      (State.ready ⟨w, b⟩ → State.fetched ⟨w, b⟩ = .exop f →
        stepWith hook ⟨w, b⟩ = execExopWith hook f ⟨w, b⟩)

/-- R128, R129: an unknown code halts with the soft record (UnknownFunction, pc0, pc0); pc is past the
word or words, D holds the operand, the step counts, and nothing else changes. -/
def Obligations.UnknownCodeHaltsSoftly : Prop :=
  ∀ (w : Nat) (b : Block w) (fn : FnField) (f : Fields), readable f b →
    exec (.unknown fn f) ⟨w, b⟩ =
      .next ⟨w, { b with
        regs := regsAfterUnit f b
        halted := true
        stepsTaken := b.stepsTaken + 1
        fault := ⟨.unknownFunction, b.regs.pc.toNat, b.regs.pc⟩ }⟩

/-- R103: N ADDs with immediate operand words d1..dN add their sum to A, modulo 2^w. -/
def Obligations.ImmediateAddsAccumulateTheirSum : Prop :=
  ∀ (w : Nat) (ds : List (Word w)) (b : Block w),
    (∀ k (h : k < ds.length),
      b.inCore (b.regs.pc + BitVec.ofNat w (2 * k) + 1) ∧
        b.core.read (b.regs.pc + BitVec.ofNat w (2 * k) + 1).toNat = ds[k]) →
    ∃ c : Block w, execAll (ds.map fun _ => .add immediateForm) ⟨w, b⟩ = .next ⟨w, c⟩ ∧
      c.regs.a = b.regs.a + ds.sum ∧
      c.regs.pc = b.regs.pc + BitVec.ofNat w (2 * ds.length) ∧
      c.regs.b = b.regs.b ∧ c.regs.p = b.regs.p ∧ c.regs.g = b.regs.g ∧ c.core = b.core ∧
      c.stepsTaken = b.stepsTaken + ds.length

/-! ### What all instructions share -/

/-- R44, R46: an executed instruction changes no word of core but the ones it stores to: STORE's at D,
CALL's two at D +w P, none for any other (EXOP under the default hook). -/
def Obligations.OnlyStoredWordsOfCoreChange : Prop :=
  ∀ (w : Nat) (b c : Block w) (i : Instr), exec i ⟨w, b⟩ = .next ⟨w, c⟩ →
    ∀ x, x ∉ storedAt b i → c.core.read x = b.core.read x

/-- R22, R23, R25, R26, R28, R31: which instructions write A, B, P and `halted`; none writes G or a
construction value (EXOP under the default hook). -/
def Obligations.EachRegisterHasOnlyItsWriters : Prop :=
  ∀ (w : Nat) (b c : Block w) (i : Instr), exec i ⟨w, b⟩ = .next ⟨w, c⟩ →
    c.regs.g = b.regs.g ∧ c.cfg = b.cfg ∧
    (c.regs.a ≠ b.regs.a → ∃ f, i = .load f ∨ i = .add f) ∧
    (c.regs.b ≠ b.regs.b → ∃ f, i = .load f) ∧
    (c.regs.p ≠ b.regs.p → ∃ f, i = .call f) ∧
    (c.halted ≠ b.halted → ∃ fn f, i = .unknown fn f)

/-- R162, R163: the record an executed instruction leaves is the old one, or is of a kind its modifier
bits and its operation can raise. That an instruction always answers a next state, one that raises a
fatal fault too, is the model's choice (log 4). -/
def Obligations.InstructionsRaiseOnlyTheirFaults : Prop :=
  ∀ (w : Nat) (b : Block w) (i : Instr), ∃ c : Block w, exec i ⟨w, b⟩ = .next ⟨w, c⟩ ∧
    (c.fault = b.fault ∨ mayRecord i c.fault.kind = true ∧ c.fault.pc = b.regs.pc)

/-- R41: where core covers every word address, no instruction raises a fatal fault: each completes. -/
def Obligations.NoAddressFaultsWhereCoreCoversTheWords : Prop :=
  ∀ (w : Nat) (b : Block w), 2 ^ w ≤ b.cfg.coreSize →
    (∀ i : Instr, ∃ c : Block w, exec i ⟨w, b⟩ = .next ⟨w, c⟩ ∧ c.stepsTaken = b.stepsTaken + 1) ∧
    ∀ c : Block w, step ⟨w, b⟩ = .next ⟨w, c⟩ → c.frozen → c.fault.kind = .stepLimitExceeded

/-- R24: what D holds when a step starts never affects what an instruction commits. -/
def Obligations.InstructionsIgnoreTheOldD : Prop :=
  ∀ (w : Nat) (b c : Block w) (i : Instr) (v : Word w),
    exec i ⟨w, b⟩ = .next ⟨w, c⟩ → c.stepsTaken = b.stepsTaken + 1 →
    exec i ⟨w, b.setD v⟩ = .next ⟨w, c⟩

/-- R23: no instruction reads B: with another B every instruction does the same, B apart, and LOAD
overwrites B. -/
def Obligations.NoInstructionReadsB : Prop :=
  ∀ (w : Nat) (b c : Block w) (i : Instr) (v : Word w),
    exec i ⟨w, b⟩ = .next ⟨w, c⟩ →
    exec i ⟨w, b.setB v⟩ = .next ⟨w, c.setB v⟩ ∨
      ∃ f, i = .load f ∧ exec i ⟨w, b.setB v⟩ = .next ⟨w, c⟩

/-- R52, R53: a STORE into the word that is fetched next is seen by that fetch. -/
def Obligations.TheNextFetchSeesAStore : Prop :=
  ∀ (w : Nat) (b : Block w) (f : Fields), readable f b → b.inCore (operandOf f b) →
    operandOf f b = fallThroughOf f b →
    ∃ c : Block w, exec (.store f) ⟨w, b⟩ = .next ⟨w, c⟩ ∧ c.opcodeWord = b.regs.a ∧
      State.fetched ⟨w, c⟩ = decode b.cfg.fnCode b.regs.a

/-! ### The step (40_engine.md, 60_exceptions.md) -/

/-- R80, R84, R85, R92: where no check stops it, a step is the meaning of the instruction that the word
at pc decodes to. The meaning itself moves pc past the words and counts the step. -/
def Obligations.StepRunsTheDecodedInstruction : Prop :=
  ∀ (s : State) (i : Instr), s.ready →
    decode s.block.cfg.fnCode (s.block.core.read s.block.regs.pc.toNat) = i → step s = exec i s

/-- R81: a finite budget that is spent faults the next step with (StepLimitExceeded, pc0, pc0), halted
or not, and a budget that is not spent, or is -1, never does. -/
def Obligations.SpentBudgetRaisesStepLimitExceeded : Prop :=
  ∀ (w : Nat) (b : Block w), ¬ b.frozen →
    (b.cfg.stepBudget ≠ -1 → b.cfg.stepBudget ≤ b.stepsTaken →
      step ⟨w, b⟩ =
        .next ⟨w, { b with fault := ⟨.stepLimitExceeded, b.regs.pc.toNat, b.regs.pc⟩ }⟩) ∧
    (b.cfg.stepBudget = -1 ∨ (b.stepsTaken : Int) < b.cfg.stepBudget →
      ∃ c : Block w, step ⟨w, b⟩ = .next ⟨w, c⟩ ∧ c.fault.kind ≠ .stepLimitExceeded)

/-- R82: a halted step changes no register and no core word, adds 1 to stepsTaken, and its outcome is
halted_noop. -/
def Obligations.HaltedStepOnlyCounts : Prop :=
  ∀ (w : Nat) (b : Block w), ¬ b.frozen → ¬ b.budgetSpent → b.halted = true →
    step ⟨w, b⟩ = .next ⟨w, { b with stepsTaken := b.stepsTaken + 1 }⟩ ∧
      stepOutcome ⟨w, b⟩ = some .haltedNoop

/-- R83: a pc outside core faults the step with (ProgramCounterOutOfRange, pc0, pc0). -/
def Obligations.PcOutsideCoreRaises : Prop :=
  ∀ (w : Nat) (b : Block w), ¬ b.frozen → ¬ b.budgetSpent → b.halted = false →
    ¬ b.inCore b.regs.pc →
    step ⟨w, b⟩ =
      .next ⟨w, { b with fault := ⟨.programCounterOutOfRange, b.regs.pc.toNat, b.regs.pc⟩ }⟩

/-- R93: a step, under any hook, commits all or nothing. Either every write of the halted no-op or of
the effective-address unit and the arm of the instruction at pc stands, with the step counted, and the
block is not frozen; or nothing stands but the fault record, with pc0, of the fault raised. -/
def Obligations.StepCommitsAllOrNothing : Prop :=
  ∀ (hook : ExopHook) (w : Nat) (b : Block w) (t : State), stepWith hook ⟨w, b⟩ = .next t →
    ∃ c : Block w, t = ⟨w, c⟩ ∧
      ((c.stepsTaken = b.stepsTaken + 1 ∧ ¬ c.frozen ∧ c.cfg = b.cfg ∧
          ((b.halted = true ∧ c = { b with stepsTaken := b.stepsTaken + 1 }) ∨
            (State.ready ⟨w, b⟩ ∧
              ∃ d : Block w, attemptWith hook (State.fetched ⟨w, b⟩) b = .done d ∧
                c = { d with stepsTaken := d.stepsTaken + 1 }))) ∨
        ∃ kind addr, kind.isFatal = true ∧ c = { b with fault := ⟨kind, addr, b.regs.pc⟩ } ∧
          (State.ready ⟨w, b⟩ →
            attemptWith hook (State.fetched ⟨w, b⟩) b = .raised kind addr))

/-- R165: a fatal fault freezes the block: every later step returns that fault and has no next state,
and no host write or load clears the record; only reset does. The raising step changed nothing else.
That the raising step has a next state and a frozen one a fault is the model's choice (log 4), and so is
the refusal of a host register write (log 13). -/
def Obligations.FatalFaultFreezesUntilReset : Prop :=
  ∀ (w : Nat) (b c : Block w),
    (c.frozen →
      step ⟨w, c⟩ = .fault (.frozen c.fault.kind c.fault.addr c.fault.pc.toNat) ∧
        stepOutcome ⟨w, c⟩ = some (.fault c.fault.kind c.fault.addr c.fault.pc.toNat) ∧
        (∀ addr v t, hostWriteCore ⟨w, c⟩ addr v = .next t →
          ∃ m : Memory w, t = ⟨w, { c with core := m }⟩) ∧
        (∀ r v, hostWriteReg ⟨w, c⟩ r v = .refused .outsideInterface) ∧
        ∀ text start, ∃ m : Memory w, (load text start ⟨w, c⟩).1 = ⟨w, { c with core := m }⟩) ∧
    (step ⟨w, b⟩ = .next ⟨w, c⟩ → c.frozen →
      stepOutcome ⟨w, b⟩ = some (.fault c.fault.kind c.fault.addr c.fault.pc.toNat) ∧
        stepOutcome ⟨w, c⟩ = stepOutcome ⟨w, b⟩ ∧ c.fault.pc = b.regs.pc ∧
        c = { b with fault := c.fault }) ∧
    ¬ (hostReset ⟨w, c⟩).block.frozen

/-- The model's choice of R95's fault outcome (log 4): a step, under any hook, has a next state exactly
when the block is not frozen, and no step is refused. -/
def Obligations.OnlyAFrozenBlockStops : Prop :=
  ∀ (hook : ExopHook) (s : State),
    ((∃ t, stepWith hook s = .next t) ↔ ¬ s.block.frozen) ∧ ∀ r, stepWith hook s ≠ .refused r

/-- R95: the outcome of a step. A frozen block returns the fault kept from the earlier step. Any other
returns fault when it leaves a fatal record, else halted_noop when it was halted, else
soft(UnknownFunction) for an unknown code and ok for one of the eight operations. That the outcome is
`stepOutcome`, beside a next state that a raising step has too, is the model's choice (log 4). -/
def Obligations.StepOutcomeSaysWhatTheStepDid : Prop :=
  ∀ (w : Nat) (b : Block w),
    (b.frozen →
      stepOutcome ⟨w, b⟩ = some (.fault b.fault.kind b.fault.addr b.fault.pc.toNat)) ∧
    (¬ b.frozen → ∃ c : Block w, step ⟨w, b⟩ = .next ⟨w, c⟩ ∧
      (c.frozen →
        stepOutcome ⟨w, b⟩ = some (.fault c.fault.kind c.fault.addr c.fault.pc.toNat)) ∧
      (¬ c.frozen → b.halted = true → stepOutcome ⟨w, b⟩ = some .haltedNoop) ∧
      (¬ c.frozen → b.halted = false → (∃ fn f, State.fetched ⟨w, b⟩ = .unknown fn f) →
        stepOutcome ⟨w, b⟩ = some .softUnknownFunction) ∧
      (¬ c.frozen → b.halted = false → (∀ fn f, State.fetched ⟨w, b⟩ ≠ .unknown fn f) →
        stepOutcome ⟨w, b⟩ = some .ok))

/-- R28: a step sets `halted` only by executing an unknown code, and no step clears it; reset does. -/
def Obligations.HaltedIsSetByUnknownAndClearedByReset : Prop :=
  ∀ (hook : ExopHook) (s t : State), stepWith hook s = .next t →
    (s.block.halted = true → t.block.halted = true) ∧
    (s.block.halted = false → t.block.halted = true →
      s.ready ∧ ∃ fn f, s.fetched = .unknown fn f) ∧
    (hostReset s).block.halted = false

/-- R43, R117: a JMP to an address outside core completes, and the next step, if the budget allows it,
faults there. -/
def Obligations.JumpOutsideCoreFaultsAtTheNextFetch : Prop :=
  ∀ (w : Nat) (b : Block w) (f : Fields), readable f b → ¬ b.inCore (operandOf f b) →
    ¬ b.frozen → b.halted = false →
    (b.cfg.stepBudget = -1 ∨ (b.stepsTaken : Int) + 1 < b.cfg.stepBudget) →
    ∃ c : Block w, exec (.jmp f) ⟨w, b⟩ = .next ⟨w, c⟩ ∧
      step ⟨w, c⟩ =
        .next ⟨w, { c with
          fault := ⟨.programCounterOutOfRange, (operandOf f b).toNat, operandOf f b⟩ }⟩

/-- R81, R165: a finite budget ends every run: within the steps it still allows, one that faults and
one that returns the fault, a run stops with a fault. -/
def Obligations.FiniteBudgetEndsEveryRun : Prop :=
  ∀ (s : State) (n : Nat), s.block.cfg.stepBudget = n →
    ∃ r, Sys2Proof.core.run (n - s.block.stepsTaken + 2) s = .fault r

/-! ### The invariant -/

/-- R19, R28, R30, R34, R81, R93, R160, R164: the invariant holds after every step from a state that has it,
under any EXOP hook, and so for `step`. -/
def Obligations.StepKeepsTheInvariant : Prop :=
  (∀ s t : State, s.Inv → step s = .next t → t.Inv) ∧
  ∀ (hook : ExopHook) (s t : State), s.Inv → stepWith hook s = .next t → t.Inv

/-- The reset state of the reference build (the model's choice, log 2) has the invariant. -/
def Obligations.ResetMeetsTheInvariant : Prop := State.reset.Inv

/-- R35, R180: reset leaves every register and core word 0, running, no step taken and no fault, and
the construction values as they were. -/
def Obligations.ResetValuesAreZero : Prop :=
  ∀ s : State,
    (∀ r, (hostReset s).block.readReg r = 0) ∧ (∀ x, (hostReset s).block.core.read x = 0) ∧
      (hostReset s).block.halted = false ∧ (hostReset s).block.stepsTaken = 0 ∧
      (hostReset s).block.fault = ⟨.none, 0, 0⟩ ∧ (hostReset s).block.cfg = s.block.cfg ∧
      hostReset State.reset = State.reset

/-- R13, R19, R36, R135: construction gives the invariant, and reset, the host's writes and the loader
keep it. -/
def Obligations.HostTransactionsKeepTheInvariant : Prop :=
  (∀ w cfg t, build w cfg = .next t → t.Inv) ∧
  ∀ s : State, s.Inv →
    (hostReset s).Inv ∧
    (∀ addr v t, hostWriteCore s addr v = .next t → t.Inv) ∧
    (∀ r v t, hostWriteReg s r v = .next t → t.Inv) ∧
    ∀ text start, (load text start s).1.Inv

/-- R34: core's form is canonical: two cores in it that read alike are equal data. -/
def Obligations.CanonicalCoresThatReadAlikeAreEqual : Prop :=
  ∀ (w n : Nat) (m m' : Memory w), m.wf n = true → m'.wf n = true →
    (∀ x, m.read x = m'.read x) → m = m'

/-! ### The host's transactions and the loader -/

/-- R19: construction is refused exactly for a parameter outside its legal range. -/
def Obligations.IllegalParametersAreRefused : Prop :=
  ∀ (w : Nat) (cfg : Config),
    (build w cfg = .refused .illegalParameter ↔
      w < 8 ∨ cfg.coreSize < 16 ∨ cfg.stepBudget < -1 ∨ ¬ cfg.fnCode.injective) ∧
    (build w cfg ≠ .refused .illegalParameter →
      build w cfg = .next ⟨w, Block.resetOf w cfg⟩)

/-- R36, R185: before the first step a host register write sets that register alone; after any step it
is outside the interface. That the model refuses it then, where R185 leaves the effect undefined, is the
model's choice (log 13), and so is its test for before the first step, no step counted and no fault
recorded, which is deduced (log 13). -/
def Obligations.HostWritesRegistersOnlyBeforeTheFirstStep : Prop :=
  (∀ (w : Nat) (b : Block w) (r : RegName) (v : Word w), b.stepsTaken = 0 → b.fault.kind = .none →
    ∃ c : Block w, hostWriteReg ⟨w, b⟩ r v = .next ⟨w, c⟩ ∧ c.readReg r = v ∧
      (∀ q, q ≠ r → c.readReg q = b.readReg q) ∧ c = { b with regs := c.regs }) ∧
  ∀ (s t : State), step s = .next t → ∀ r v, hostWriteReg t r v = .refused .outsideInterface

/-- R13, R46: a host core write at a core address is what a host read then returns there, and every
other address reads as before; no other state changes. -/
def Obligations.HostCoreWriteIsReadBack : Prop :=
  ∀ (w : Nat) (b : Block w) (addr : Nat) (v : Word w), addr < b.cfg.coreSize →
    ∃ c : Block w, hostWriteCore ⟨w, b⟩ addr v = .next ⟨w, c⟩ ∧
      hostReadCore ⟨w, c⟩ addr = some v ∧
      (∀ x, x ≠ addr → hostReadCore ⟨w, c⟩ x = hostReadCore ⟨w, b⟩ x) ∧
      c = { b with core := c.core }

/-- R148: what the loader emits and returns depends on the text, the start address, w, CORE_SIZE and
FN_CODE alone; it writes only core[start .. cursor-1] and no other state; loading the same text
twice leaves core as loading it once does. -/
def Obligations.LoadingIsDeterministicAndLocal : Prop :=
  ∀ (w : Nat) (b b' : Block w) (text : List Char) (start : Nat),
    b.cfg.coreSize = b'.cfg.coreSize → b.cfg.fnCode = b'.cfg.fnCode →
    (loaderRun text start ⟨w, b⟩).2 = (loaderRun text start ⟨w, b'⟩).2 ∧
    (loaderRun text start ⟨w, b⟩).1.emitted = (loaderRun text start ⟨w, b'⟩).1.emitted ∧
    (load text start ⟨w, b⟩).1 =
      ⟨w, { b with core := (loaderRun text start ⟨w, b⟩).1.core }⟩ ∧
    (∀ x, x < start ∨ (loaderRun text start ⟨w, b⟩).1.cursor ≤ x →
      (loaderRun text start ⟨w, b⟩).1.core.read x = b.core.read x) ∧
    ∀ x, (load text start (load text start ⟨w, b⟩).1).1.block.core.read x =
      (load text start ⟨w, b⟩).1.block.core.read x

/-- R145: where a text loads into one size of core with n words, at another size it loads with n words
if they all land below CORE_SIZE, and else overflows at the first address outside core, with exactly
the words before it emitted. -/
def Obligations.LoaderOverflowsAtTheFirstWordOutsideCore : Prop :=
  ∀ (w : Nat) (b : Block w) (text : List Char) (start bigger n : Nat),
    (load text start ⟨w, { b with cfg := { b.cfg with coreSize := bigger } }⟩).2 = .ok n →
    ((n = 0 ∨ start + n ≤ b.cfg.coreSize) → (load text start ⟨w, b⟩).2 = .ok n) ∧
    (n ≠ 0 → b.cfg.coreSize < start + n →
      (load text start ⟨w, b⟩).2 = .loaderOverflow (max start b.cfg.coreSize) ∧
      (loaderRun text start ⟨w, b⟩).1.emitted =
        (loaderRun text start ⟨w, { b with cfg := { b.cfg with coreSize := bigger } }⟩).1.emitted.take
          (b.cfg.coreSize - start))

/-- R144, R145: the words a load emits stand in core at consecutive addresses from the start, those
before an overflow too. -/
def Obligations.EmittedWordsStandInCore : Prop :=
  ∀ (s : State) (text : List Char) (start k : Nat)
    (h : k < (loaderRun text start s).1.emitted.length),
    ((loaderRun text start s).1.emitted[k]).1 = start + k ∧
      (load text start s).1.block.core.read (start + k) = ((loaderRun text start s).1.emitted[k]).2

/-- R14, R125: a step that executes a word has that word's event first, with its pc, the raw word and
its decoded fields; an EXOP under the default hook then has its warning event; a step that executes no
word has no event. That the warning comes only where the effective-address unit raises nothing (log 10),
that it carries pc0 (log 27), and that another hook may warn or not (log 28) are the model's choices. -/
def Obligations.ExecutedWordHasItsTraceEvent : Prop :=
  ∀ s : State, ∃ e : TraceEvent s.wordBits,
    e = ⟨.execute, s.block.regs.pc, s.block.core.read s.block.regs.pc.toNat,
      splitWord (s.block.core.read s.block.regs.pc.toNat), none⟩ ∧
    (s.ready → ∀ f, s.fetched = .exop f → readable f s.block →
      stepEvents s.block = [e, { e with kind := .exopWarning }]) ∧
    (s.ready → ∀ f, s.fetched = .exop f → ¬ readable f s.block → stepEvents s.block = [e]) ∧
    (s.ready → (∀ f, s.fetched ≠ .exop f) → stepEvents s.block = [e]) ∧
    (s.ready → stepEventsWith false s.block = [e]) ∧
    (¬ s.ready → ∀ warns, stepEventsWith warns s.block = [])

/-! ### The loader's tokens (48_loader.md) -/

/-- R142, R144: between tokens, a mnemonic letter emits the word of its operation with the pending
modifiers and a zero displacement, clears them, and the load goes on; or it overflows at the cursor. -/
def Obligations.LoaderMnemonicEmitsItsInstruction : Prop :=
  ∀ (w : Nat) (cfg : Config) (l : LoaderState w) (letter : Char) (op : Op) (rest : List Char),
    l.betweenTokens → (letter, op) ∈ mnemonicLetters →
    loadChars cfg (letter :: rest) l =
      emitThen cfg l (packWord w ⟨cfg.fnCode.codeOf op, { l.mods with dispField := 0 }⟩)
        ⟨false, false, false, false, 0⟩ rest

/-- R139, R140, R146: between tokens, a run of up to 2 ceil(w/4) hex digits that ends at another
character, at the end of the text or at that length emits its value modulo 2^w, and keeps the pending
modifiers. The cut and the reduction are the spec's decision D23 (log 20), the digit values are log 14's. -/
def Obligations.LoaderHexRunEmitsItsValue : Prop :=
  ∀ (w : Nat) (cfg : Config) (l : LoaderState w) (digits : List (Fin 16)) (rest : List Char),
    l.betweenTokens → digits ≠ [] → digits.length ≤ 2 * ((w + 3) / 4) →
    (digits.length = 2 * ((w + 3) / 4) ∨ ∀ c ∈ rest.head?, c ∉ hexDigits) →
    loadChars cfg (spells digits ++ rest) l =
      emitThen cfg l (BitVec.ofNat w (Nat.ofDigits 16 (digits.reverse.map Fin.val))) l.mods rest

/-- R137, R138, R141, R143, R146: a load starts between tokens with nothing emitted; from there a
modifier letter sets its flag, and a comment, an ignored character and the end of the text change
nothing, and none of them emits a word. A comment may end with the text. -/
def Obligations.LoaderEmitsNothingForOtherText : Prop :=
  (∀ (w : Nat) (b : Block w) (text : List Char) (start : Nat),
    (loaderStart start b.core).betweenTokens ∧
    loaderStart start b.core = ⟨start, ⟨false, false, false, false, 0⟩, [], false, b.core, []⟩ ∧
    loaderRun text start ⟨w, b⟩ =
      (loadChars b.cfg text (loaderStart start b.core)).finish start) ∧
  ∀ (w : Nat) (cfg : Config) (l : LoaderState w), l.betweenTokens →
    (∀ rest, loadChars cfg ('d' :: rest) l =
      loadChars cfg rest { l with mods := { l.mods with dBit := true } }) ∧
    (∀ rest, loadChars cfg ('p' :: rest) l =
      loadChars cfg rest { l with mods := { l.mods with pBit := true } }) ∧
    (∀ rest, loadChars cfg ('g' :: rest) l =
      loadChars cfg rest { l with mods := { l.mods with gBit := true } }) ∧
    (∀ rest, loadChars cfg ('i' :: rest) l =
      loadChars cfg rest { l with mods := { l.mods with iBit := true } }) ∧
    (∀ comment rest, '\n' ∉ comment →
      loadChars cfg (';' :: (comment ++ '\n' :: rest)) l = loadChars cfg rest l) ∧
    (∀ comment, '\n' ∉ comment →
      loadChars cfg (';' :: comment) l = .running { l with inComment := true }) ∧
    (∀ c rest, isIgnored c → loadChars cfg (c :: rest) l = loadChars cfg rest l) ∧
    loadChars cfg [] l = .running l
end

