-- ==== Sys2Proof/Laws/Memory.lean ====
section
/-! SUPPORT. The laws of core: reading after writing, and every operation keeps the canonical form. -/
namespace Sys2Proof.Machine

variable {w : Nat}

/-- At the reference width an entry of core is the host's cell (log 8). -/
theorem memory_cells : Memory referenceWidth = List Host.Cell := rfl

@[simp] theorem Memory.read_nil (addr : Nat) : Memory.read ([] : Memory w) addr = 0 := rfl

theorem Memory.read_cons (k : Nat) (v : Word w) (rest : Memory w) (addr : Nat) :
    Memory.read ((k, v) :: rest) addr = if addr = k then v else Memory.read rest addr := rfl

/-! ### Reading after writing -/

theorem Memory.read_erase (m : Memory w) (addr x : Nat) :
    (m.erase addr).read x = if x = addr then 0 else m.read x := by
  induction m with
  | nil => simp [Memory.erase]
  | cons c rest ih =>
    obtain ⟨k, v⟩ := c
    by_cases hk : k = addr
    · subst hk
      have : Memory.erase ((k, v) :: rest) k = Memory.erase rest k := by simp [Memory.erase]
      rw [this, ih, Memory.read_cons]
      split <;> rfl
    · have : Memory.erase ((k, v) :: rest) addr = (k, v) :: Memory.erase rest addr := by
        simp [Memory.erase, hk]
      rw [this, Memory.read_cons, Memory.read_cons, ih]
      by_cases hx : x = k
      · subst hx; simp [hk]
      · simp [hx]

theorem Memory.read_insert (m : Memory w) (addr : Nat) (v : Word w) (x : Nat)
    (h : ∀ c ∈ m, c.1 ≠ addr) :
    (m.insert addr v).read x = if x = addr then v else m.read x := by
  induction m with
  | nil => simp [Memory.insert, Memory.read_cons]
  | cons c rest ih =>
    obtain ⟨k, u⟩ := c
    have hk : k ≠ addr := h (k, u) (by simp)
    have ih := ih fun c hc => h c (by simp [hc])
    by_cases hlt : addr < k
    · simp [Memory.insert, hlt, Memory.read_cons]
    · simp only [Memory.insert, hlt, if_false, Memory.read_cons, ih]
      by_cases hx : x = k
      · subst hx; simp [hk]
      · simp [hx]

theorem Memory.not_mem_erase (m : Memory w) (addr : Nat) : ∀ c ∈ m.erase addr, c.1 ≠ addr := by
  intro c hc
  simpa [Memory.erase] using (List.mem_filter.mp hc).2

/-- A write changes what its own address reads as, and no other. -/
theorem Memory.read_write (m : Memory w) (addr : Nat) (v : Word w) (x : Nat) :
    (m.write addr v).read x = if x = addr then v else m.read x := by
  unfold Memory.write
  split
  · next h => subst h; exact Memory.read_erase m addr x
  · rw [Memory.read_insert _ _ _ _ (Memory.not_mem_erase m addr), Memory.read_erase]
    split <;> rfl

@[simp] theorem Memory.read_write_same (m : Memory w) (addr : Nat) (v : Word w) :
    (m.write addr v).read addr = v := by simp [Memory.read_write]

theorem Memory.read_write_other (m : Memory w) {addr x : Nat} (v : Word w) (h : x ≠ addr) :
    (m.write addr v).read x = m.read x := by simp [Memory.read_write, h]

/-! ### The canonical form -/

theorem Memory.wf_iff (n : Nat) (m : Memory w) :
    m.wf n = true ↔
      (m.Pairwise fun x y => x.1 < y.1) ∧ ∀ c ∈ m, c.1 < n ∧ c.2 ≠ Memory.unlisted := by
  simp [Memory.wf, List.all_eq_true]

/-- Reset core has the canonical form. -/
theorem Memory.wf_nil (n : Nat) : Memory.wf n ([] : Memory w) = true := rfl

theorem Memory.wf_erase {n : Nat} {m : Memory w} (addr : Nat) (h : m.wf n = true) :
    (m.erase addr).wf n = true := by
  rw [Memory.wf_iff] at h ⊢
  exact ⟨h.1.filter _, fun c hc => h.2 c (List.mem_filter.mp hc).1⟩

theorem Memory.mem_insert {m : Memory w} {addr : Nat} {v : Word w} {c : Nat × Word w}
    (h : c ∈ m.insert addr v) : c = (addr, v) ∨ c ∈ m := by
  induction m with
  | nil => simpa [Memory.insert] using h
  | cons d rest ih =>
    obtain ⟨k, u⟩ := d
    by_cases hlt : addr < k
    · simpa [Memory.insert, hlt] using h
    · simp only [Memory.insert, hlt, if_false, List.mem_cons] at h ⊢
      rcases h with h | h
      · exact .inr (.inl h)
      · rcases ih h with h | h
        · exact .inl h
        · exact .inr (.inr h)

theorem Memory.pairwise_insert {m : Memory w} {addr : Nat} (v : Word w)
    (h : m.Pairwise fun x y => x.1 < y.1) (hne : ∀ c ∈ m, c.1 ≠ addr) :
    (m.insert addr v).Pairwise fun x y => x.1 < y.1 := by
  induction m with
  | nil => simp [Memory.insert]
  | cons d rest ih =>
    obtain ⟨k, u⟩ := d
    have hk : k ≠ addr := hne (k, u) (by simp)
    obtain ⟨hhead, htail⟩ := List.pairwise_cons.mp h
    by_cases hlt : addr < k
    · simp only [Memory.insert, hlt, if_true]
      refine List.pairwise_cons.mpr ⟨?_, h⟩
      intro c hc
      rcases List.mem_cons.mp hc with rfl | hc
      · exact hlt
      · exact lt_trans hlt (hhead c hc)
    · simp only [Memory.insert, hlt, if_false]
      refine List.pairwise_cons.mpr ⟨?_, ih htail fun c hc => hne c (by simp [hc])⟩
      intro c hc
      rcases Memory.mem_insert hc with rfl | hc
      · exact lt_of_le_of_ne (not_lt.mp hlt) hk
      · exact hhead c hc

/-- A write to a core address keeps the canonical form. -/
theorem Memory.wf_write {n : Nat} {m : Memory w} {addr : Nat} (v : Word w) (h : m.wf n = true)
    (ha : addr < n) : (m.write addr v).wf n = true := by
  unfold Memory.write
  split
  · exact Memory.wf_erase addr h
  · next hv =>
    have he := (Memory.wf_iff n _).mp (Memory.wf_erase addr h)
    refine (Memory.wf_iff n _).mpr
      ⟨Memory.pairwise_insert v he.1 (Memory.not_mem_erase m addr), fun c hc => ?_⟩
    rcases Memory.mem_insert hc with rfl | hc
    · exact ⟨ha, hv⟩
    · exact he.2 c hc

/-- A hook's writes keep the canonical form. -/
theorem Memory.wf_writeAll {n : Nat} {m : Memory w} (ws : List (Nat × Word w))
    (h : m.wf n = true) : (m.writeAll n ws).wf n = true := by
  induction ws generalizing m with
  | nil => exact h
  | cons c rest ih =>
    obtain ⟨addr, v⟩ := c
    rw [Memory.writeAll]
    split
    · next ha => exact ih (Memory.wf_write v h ha)
    · exact ih h

/-- A list of writes in two parts makes the first part and then the second. -/
theorem Memory.writeAll_append (n : Nat) (m : Memory w) (ws us : List (Nat × Word w)) :
    m.writeAll n (ws ++ us) = (m.writeAll n ws).writeAll n us := by
  induction ws generalizing m with
  | nil => rfl
  | cons c rest ih => exact ih _

/-- Writes that name an address nowhere, or an address outside core, leave its word as it was. -/
theorem Memory.read_writeAll_other {n : Nat} (ws : List (Nat × Word w)) {x : Nat}
    (h : (∀ v, (x, v) ∉ ws) ∨ n ≤ x) (m : Memory w) : (m.writeAll n ws).read x = m.read x := by
  induction ws generalizing m with
  | nil => rfl
  | cons c rest ih =>
    obtain ⟨addr, u⟩ := c
    rw [Memory.writeAll, ih (h.imp (fun h v hv => h v (List.mem_cons_of_mem _ hv)) id)]
    split
    · next ha =>
      refine Memory.read_write_other _ _ fun hx => ?_
      rcases h with h | h
      · exact h u (hx ▸ List.mem_cons_self)
      · omega
    · rfl

end Sys2Proof.Machine
end

