-- ==== Sys2Proof/Laws/State.lean ====
section
/-! SUPPORT. One lemma for each field of the block under each update of Machine/Ops.lean, so that no proof unfolds a
record update. -/
namespace Sys2Proof.Machine

variable {w : Nat} (b : Block w) (v u : Word w)

/-! ### setPc -/
@[simp] theorem Block.setPc_regs_pc : (b.setPc v).regs.pc = v := rfl
@[simp] theorem Block.setPc_regs_d : (b.setPc v).regs.d = b.regs.d := rfl
@[simp] theorem Block.setPc_regs_p : (b.setPc v).regs.p = b.regs.p := rfl
@[simp] theorem Block.setPc_regs_g : (b.setPc v).regs.g = b.regs.g := rfl
@[simp] theorem Block.setPc_regs_a : (b.setPc v).regs.a = b.regs.a := rfl
@[simp] theorem Block.setPc_regs_b : (b.setPc v).regs.b = b.regs.b := rfl
@[simp] theorem Block.setPc_cfg : (b.setPc v).cfg = b.cfg := rfl
@[simp] theorem Block.setPc_halted : (b.setPc v).halted = b.halted := rfl
@[simp] theorem Block.setPc_stepsTaken : (b.setPc v).stepsTaken = b.stepsTaken := rfl
@[simp] theorem Block.setPc_fault : (b.setPc v).fault = b.fault := rfl
@[simp] theorem Block.setPc_core : (b.setPc v).core = b.core := rfl

/-! ### setD -/
@[simp] theorem Block.setD_regs_pc : (b.setD v).regs.pc = b.regs.pc := rfl
@[simp] theorem Block.setD_regs_d : (b.setD v).regs.d = v := rfl
@[simp] theorem Block.setD_regs_p : (b.setD v).regs.p = b.regs.p := rfl
@[simp] theorem Block.setD_regs_g : (b.setD v).regs.g = b.regs.g := rfl
@[simp] theorem Block.setD_regs_a : (b.setD v).regs.a = b.regs.a := rfl
@[simp] theorem Block.setD_regs_b : (b.setD v).regs.b = b.regs.b := rfl
@[simp] theorem Block.setD_cfg : (b.setD v).cfg = b.cfg := rfl
@[simp] theorem Block.setD_halted : (b.setD v).halted = b.halted := rfl
@[simp] theorem Block.setD_stepsTaken : (b.setD v).stepsTaken = b.stepsTaken := rfl
@[simp] theorem Block.setD_fault : (b.setD v).fault = b.fault := rfl
@[simp] theorem Block.setD_core : (b.setD v).core = b.core := rfl

/-! ### setP -/
@[simp] theorem Block.setP_regs_pc : (b.setP v).regs.pc = b.regs.pc := rfl
@[simp] theorem Block.setP_regs_d : (b.setP v).regs.d = b.regs.d := rfl
@[simp] theorem Block.setP_regs_p : (b.setP v).regs.p = v := rfl
@[simp] theorem Block.setP_regs_g : (b.setP v).regs.g = b.regs.g := rfl
@[simp] theorem Block.setP_regs_a : (b.setP v).regs.a = b.regs.a := rfl
@[simp] theorem Block.setP_regs_b : (b.setP v).regs.b = b.regs.b := rfl
@[simp] theorem Block.setP_cfg : (b.setP v).cfg = b.cfg := rfl
@[simp] theorem Block.setP_halted : (b.setP v).halted = b.halted := rfl
@[simp] theorem Block.setP_stepsTaken : (b.setP v).stepsTaken = b.stepsTaken := rfl
@[simp] theorem Block.setP_fault : (b.setP v).fault = b.fault := rfl
@[simp] theorem Block.setP_core : (b.setP v).core = b.core := rfl

/-! ### setG -/
@[simp] theorem Block.setG_regs_pc : (b.setG v).regs.pc = b.regs.pc := rfl
@[simp] theorem Block.setG_regs_d : (b.setG v).regs.d = b.regs.d := rfl
@[simp] theorem Block.setG_regs_p : (b.setG v).regs.p = b.regs.p := rfl
@[simp] theorem Block.setG_regs_g : (b.setG v).regs.g = v := rfl
@[simp] theorem Block.setG_regs_a : (b.setG v).regs.a = b.regs.a := rfl
@[simp] theorem Block.setG_regs_b : (b.setG v).regs.b = b.regs.b := rfl
@[simp] theorem Block.setG_cfg : (b.setG v).cfg = b.cfg := rfl
@[simp] theorem Block.setG_halted : (b.setG v).halted = b.halted := rfl
@[simp] theorem Block.setG_stepsTaken : (b.setG v).stepsTaken = b.stepsTaken := rfl
@[simp] theorem Block.setG_fault : (b.setG v).fault = b.fault := rfl
@[simp] theorem Block.setG_core : (b.setG v).core = b.core := rfl

/-! ### setA -/
@[simp] theorem Block.setA_regs_pc : (b.setA v).regs.pc = b.regs.pc := rfl
@[simp] theorem Block.setA_regs_d : (b.setA v).regs.d = b.regs.d := rfl
@[simp] theorem Block.setA_regs_p : (b.setA v).regs.p = b.regs.p := rfl
@[simp] theorem Block.setA_regs_g : (b.setA v).regs.g = b.regs.g := rfl
@[simp] theorem Block.setA_regs_a : (b.setA v).regs.a = v := rfl
@[simp] theorem Block.setA_regs_b : (b.setA v).regs.b = b.regs.b := rfl
@[simp] theorem Block.setA_cfg : (b.setA v).cfg = b.cfg := rfl
@[simp] theorem Block.setA_halted : (b.setA v).halted = b.halted := rfl
@[simp] theorem Block.setA_stepsTaken : (b.setA v).stepsTaken = b.stepsTaken := rfl
@[simp] theorem Block.setA_fault : (b.setA v).fault = b.fault := rfl
@[simp] theorem Block.setA_core : (b.setA v).core = b.core := rfl

/-! ### setB -/
@[simp] theorem Block.setB_regs_pc : (b.setB v).regs.pc = b.regs.pc := rfl
@[simp] theorem Block.setB_regs_d : (b.setB v).regs.d = b.regs.d := rfl
@[simp] theorem Block.setB_regs_p : (b.setB v).regs.p = b.regs.p := rfl
@[simp] theorem Block.setB_regs_g : (b.setB v).regs.g = b.regs.g := rfl
@[simp] theorem Block.setB_regs_a : (b.setB v).regs.a = b.regs.a := rfl
@[simp] theorem Block.setB_regs_b : (b.setB v).regs.b = v := rfl
@[simp] theorem Block.setB_cfg : (b.setB v).cfg = b.cfg := rfl
@[simp] theorem Block.setB_halted : (b.setB v).halted = b.halted := rfl
@[simp] theorem Block.setB_stepsTaken : (b.setB v).stepsTaken = b.stepsTaken := rfl
@[simp] theorem Block.setB_fault : (b.setB v).fault = b.fault := rfl
@[simp] theorem Block.setB_core : (b.setB v).core = b.core := rfl

/-! ### advancePc -/
@[simp] theorem Block.advancePc_regs_pc : b.advancePc.regs.pc = b.regs.pc + 1 := rfl
@[simp] theorem Block.advancePc_regs_d : b.advancePc.regs.d = b.regs.d := rfl
@[simp] theorem Block.advancePc_regs_p : b.advancePc.regs.p = b.regs.p := rfl
@[simp] theorem Block.advancePc_regs_g : b.advancePc.regs.g = b.regs.g := rfl
@[simp] theorem Block.advancePc_regs_a : b.advancePc.regs.a = b.regs.a := rfl
@[simp] theorem Block.advancePc_regs_b : b.advancePc.regs.b = b.regs.b := rfl
@[simp] theorem Block.advancePc_cfg : b.advancePc.cfg = b.cfg := rfl
@[simp] theorem Block.advancePc_halted : b.advancePc.halted = b.halted := rfl
@[simp] theorem Block.advancePc_stepsTaken : b.advancePc.stepsTaken = b.stepsTaken := rfl
@[simp] theorem Block.advancePc_fault : b.advancePc.fault = b.fault := rfl
@[simp] theorem Block.advancePc_core : b.advancePc.core = b.core := rfl

/-! ### writeWord -/
@[simp] theorem Block.writeWord_cfg : (b.writeWord u v).cfg = b.cfg := rfl
@[simp] theorem Block.writeWord_regs : (b.writeWord u v).regs = b.regs := rfl
@[simp] theorem Block.writeWord_halted : (b.writeWord u v).halted = b.halted := rfl
@[simp] theorem Block.writeWord_stepsTaken : (b.writeWord u v).stepsTaken = b.stepsTaken := rfl
@[simp] theorem Block.writeWord_fault : (b.writeWord u v).fault = b.fault := rfl
@[simp] theorem Block.writeWord_core : (b.writeWord u v).core = b.core.write u.toNat v := rfl

/-! ### countStep -/
@[simp] theorem Block.countStep_cfg : b.countStep.cfg = b.cfg := rfl
@[simp] theorem Block.countStep_regs : b.countStep.regs = b.regs := rfl
@[simp] theorem Block.countStep_halted : b.countStep.halted = b.halted := rfl
@[simp] theorem Block.countStep_fault : b.countStep.fault = b.fault := rfl
@[simp] theorem Block.countStep_core : b.countStep.core = b.core := rfl
@[simp] theorem Block.countStep_stepsTaken : b.countStep.stepsTaken = b.stepsTaken + 1 := rfl

/-! ### raise -/
variable (k : FaultKind) (addr : Nat)

@[simp] theorem Block.raise_cfg : (b.raise k addr).cfg = b.cfg := rfl
@[simp] theorem Block.raise_regs : (b.raise k addr).regs = b.regs := rfl
@[simp] theorem Block.raise_halted : (b.raise k addr).halted = b.halted := rfl
@[simp] theorem Block.raise_stepsTaken : (b.raise k addr).stepsTaken = b.stepsTaken := rfl
@[simp] theorem Block.raise_core : (b.raise k addr).core = b.core := rfl
@[simp] theorem Block.raise_fault :
    (b.raise k addr).fault = { kind := k, addr := addr, pc := b.regs.pc } := rfl


end Sys2Proof.Machine
end

