-- ==== Sys2Proof/Laws/Ops.lean ====
section
/-! SUPPORT. For each shared operation, one lemma that says everything it can do. Later proofs cite these and do
not unfold the operation. -/
namespace Sys2Proof.Machine

variable {w : Nat}

/-! ### Attempts and the commit -/

@[simp] theorem Attempt.andThen_done (b : Block w) (rest : Block w → Attempt w) :
    (Attempt.done b).andThen rest = rest b := rfl

@[simp] theorem Attempt.andThen_raised (k : FaultKind) (addr : Nat) (rest : Block w → Attempt w) :
    (Attempt.raised k addr).andThen rest = .raised k addr := rfl

/-- Two stages are done together exactly when each is done. -/
theorem Attempt.andThen_eq_done {t : Attempt w} {rest : Block w → Attempt w} {c : Block w} :
    t.andThen rest = .done c ↔ ∃ b, t = .done b ∧ rest b = .done c := by
  cases t <;> simp

/-- A fault of two stages comes from the first, or from the second on what the first did. -/
theorem Attempt.andThen_eq_raised {t : Attempt w} {rest : Block w → Attempt w} {k : FaultKind}
    {addr : Nat} :
    t.andThen rest = .raised k addr ↔
      t = .raised k addr ∨ ∃ b, t = .done b ∧ rest b = .raised k addr := by
  cases t <;> simp

@[simp] theorem Block.commit_done (start b : Block w) : start.commit (.done b) = b.countStep := rfl

@[simp] theorem Block.commit_raised (start : Block w) (k : FaultKind) (addr : Nat) :
    start.commit (.raised k addr) = start.raise k addr := rfl

/-! ### Core accesses -/

theorem Block.readWord_eq (b : Block w) (addr : Word w) : b.readWord addr = b.core.read addr.toNat :=
  rfl

/-! ### The effective-address unit, stage by stage -/

/-- The base fetch either writes D (and, with the D bit, advances pc) or raises. -/
theorem fetchBase_cases (f : Fields) (b : Block w) :
    (f.dBit = true ∧ b.inCore b.regs.pc ∧
      fetchBase f b = .done ((b.setD (b.core.read b.regs.pc.toNat)).setPc (b.regs.pc + 1))) ∨
    (f.dBit = true ∧ ¬ b.inCore b.regs.pc ∧
      fetchBase f b = .raised .programCounterOutOfRange b.regs.pc.toNat) ∨
    (f.dBit = false ∧ fetchBase f b = .done (b.setD (b.regs.pc + sextDisp w f.dispField))) := by
  unfold fetchBase
  cases f.dBit
  · exact .inr (.inr ⟨rfl, rfl⟩)
  · by_cases h : b.inCore b.regs.pc
    · exact .inl ⟨rfl, h, by rw [if_pos rfl, if_pos h]; rfl⟩
    · exact .inr (.inl ⟨rfl, h, by rw [if_pos rfl, if_neg h]⟩)

theorem addFrame_eq (f : Fields) (b : Block w) :
    addFrame f b = b.setD (b.regs.d + if f.pBit then b.regs.p else 0) := by
  unfold addFrame
  cases f.pBit <;> simp [Block.setD]

theorem addGlobal_eq (f : Fields) (b : Block w) :
    addGlobal f b = b.setD (b.regs.d + if f.gBit then b.regs.g else 0) := by
  unfold addGlobal
  cases f.gBit <;> simp [Block.setD]

/-- The indirection either replaces D by the word it points to, or leaves it, or raises. -/
theorem indirect_cases (f : Fields) (b : Block w) :
    (f.iBit = true ∧ b.inCore b.regs.d ∧
      indirect f b = .done (b.setD (b.core.read b.regs.d.toNat))) ∨
    (f.iBit = true ∧ ¬ b.inCore b.regs.d ∧
      indirect f b = .raised .indirectAddressOutOfRange b.regs.d.toNat) ∨
    (f.iBit = false ∧ indirect f b = .done b) := by
  unfold indirect
  cases f.iBit
  · exact .inr (.inr ⟨rfl, rfl⟩)
  · by_cases h : b.inCore b.regs.d
    · exact .inl ⟨rfl, h, by rw [if_pos rfl, if_pos h]; rfl⟩
    · exact .inr (.inl ⟨rfl, h, by rw [if_pos rfl, if_neg h]⟩)

/-- Where the unit is done it has written pc and D and nothing else. -/
theorem effectiveAddress_done {f : Fields} {b c : Block w} (h : effectiveAddress f b = .done c) :
    c = (b.setPc c.regs.pc).setD c.regs.d := by
  obtain ⟨b1, h1, h2⟩ := Attempt.andThen_eq_done.mp h
  rw [addGlobal_eq, addFrame_eq] at h2
  have hb1 : b1 = (b.setPc b1.regs.pc).setD b1.regs.d := by
    rcases fetchBase_cases f b with ⟨-, -, e⟩ | ⟨-, -, e⟩ | ⟨-, e⟩ <;> rw [e] at h1 <;>
      cases h1 <;> rfl
  rw [hb1] at h2
  rcases indirect_cases f _ with ⟨-, -, e⟩ | ⟨-, -, e⟩ | ⟨-, e⟩ <;> rw [e] at h2 <;> cases h2 <;> rfl

/-- Where the unit raises, it is the operand-word fetch at pc or the indirection, at an address
outside core (R87, R89). -/
theorem effectiveAddress_raised {f : Fields} {b : Block w} {k : FaultKind} {addr : Nat}
    (h : effectiveAddress f b = .raised k addr) :
    (k = .programCounterOutOfRange ∧ f.dBit = true ∧ addr = b.regs.pc.toNat ∨
      k = .indirectAddressOutOfRange ∧ f.iBit = true) ∧
    b.cfg.coreSize ≤ addr ∧ addr < 2 ^ w := by
  rcases Attempt.andThen_eq_raised.mp h with h1 | ⟨b1, h1, h2⟩
  · rcases fetchBase_cases f b with ⟨-, -, e⟩ | ⟨hd, hn, e⟩ | ⟨-, e⟩ <;> rw [e] at h1 <;> cases h1
    exact ⟨.inl ⟨rfl, hd, rfl⟩, not_lt.mp hn, b.regs.pc.isLt⟩
  · have hcfg : b1.cfg = b.cfg := by
      rcases fetchBase_cases f b with ⟨-, -, e⟩ | ⟨-, -, e⟩ | ⟨-, e⟩ <;> rw [e] at h1 <;>
        cases h1 <;> rfl
    rw [addGlobal_eq, addFrame_eq] at h2
    rcases indirect_cases f ((b1.setD _).setD _) with ⟨-, -, e⟩ | ⟨hi, hn, e⟩ | ⟨-, e⟩ <;>
      rw [e] at h2 <;> cases h2
    exact ⟨.inr ⟨rfl, hi⟩, hcfg ▸ not_lt.mp hn, BitVec.isLt _⟩

/-! ### An executed instruction -/

/-- An executed instruction commits what its arm did after the unit, or raises what the unit or the
arm raised. -/
theorem Block.execute_cases (b : Block w) (f : Fields) (arm : Block w → Attempt w) :
    (∃ e c, effectiveAddress f b.advancePc = .done e ∧ arm e = .done c ∧
      b.execute f arm = c.countStep) ∨
    (∃ e k addr, effectiveAddress f b.advancePc = .done e ∧ arm e = .raised k addr ∧
      b.execute f arm = b.raise k addr) ∨
    (∃ k addr, effectiveAddress f b.advancePc = .raised k addr ∧
      b.execute f arm = b.raise k addr) := by
  unfold Block.execute
  rcases he : effectiveAddress f b.advancePc with e | ⟨k, addr⟩
  · rcases ha : arm e with c | ⟨k, addr⟩
    · exact .inl ⟨e, c, rfl, ha, by simp [ha]⟩
    · exact .inr (.inl ⟨e, k, addr, rfl, ha, by simp [ha]⟩)
  · exact .inr (.inr ⟨k, addr, rfl, rfl⟩)

theorem State.execute_eq (s : State) (f : Fields) (arm : Block s.wordBits → Attempt s.wordBits) :
    s.execute f arm = .next { wordBits := s.wordBits, block := s.block.execute f arm } := rfl

/-! ### The arms -/

theorem storeArm_cases (b : Block w) :
    (b.inCore b.regs.d ∧ storeArm b = .done (b.writeWord b.regs.d b.regs.a)) ∨
    (¬ b.inCore b.regs.d ∧ storeArm b = .raised .storeAddressOutOfRange b.regs.d.toNat) := by
  unfold storeArm
  by_cases h : b.inCore b.regs.d
  · exact .inl ⟨h, if_pos h⟩
  · exact .inr ⟨h, if_neg h⟩

/-- CALL's arm, with D the unit's result: both frame words in core and written, or the first one that
is not is the fault (R110). -/
theorem callArm_cases (b : Block w) :
    (b.inCore (b.regs.d + b.regs.p) ∧ b.inCore (b.regs.d + b.regs.p + 1) ∧
      callArm b = .done (callWrites (callFrame b))) ∨
    (b.inCore (b.regs.d + b.regs.p) ∧ ¬ b.inCore (b.regs.d + b.regs.p + 1) ∧
      callArm b = .raised .callFrameOutOfRange (b.regs.d + b.regs.p + 1).toNat) ∨
    (¬ b.inCore (b.regs.d + b.regs.p) ∧
      callArm b = .raised .callFrameOutOfRange (b.regs.d + b.regs.p).toNat) := by
  unfold callArm
  by_cases h1 : (callFrame b).inCore (callFrame b).regs.d
  · by_cases h2 : (callFrame b).inCore ((callFrame b).regs.d + 1)
    · exact .inl ⟨h1, h2, by rw [if_pos h1, if_pos h2]⟩
    · exact .inr (.inl ⟨h1, h2, by rw [if_pos h1, if_neg h2]; rfl⟩)
  · exact .inr (.inr ⟨h1, by rw [if_neg h1]; rfl⟩)

/-- What CALL writes, field by field (R110). -/
theorem callWrites_callFrame (b : Block w) :
    callWrites (callFrame b) =
      { b with
        regs := { b.regs with
          pc := b.regs.a, d := b.regs.d + b.regs.p, p := b.regs.d + b.regs.p }
        core := (b.core.write (b.regs.d + b.regs.p).toNat b.regs.p).write
          (b.regs.d + b.regs.p + 1).toNat b.regs.pc } := rfl

/-- The default hook changes nothing (R125). -/
@[simp] theorem applyHook_exopHook (f : Fields) (b : Block w) : applyHook exopHook f b = b := rfl

/-- A hook changes registers and core alone (R126). -/
theorem applyHook_frame (hook : ExopHook) (f : Fields) (b : Block w) :
    (applyHook hook f b).cfg = b.cfg ∧ (applyHook hook f b).halted = b.halted ∧
      (applyHook hook f b).stepsTaken = b.stepsTaken ∧ (applyHook hook f b).fault = b.fault :=
  ⟨rfl, rfl, rfl, rfl⟩

/-! ### The step -/

/-- Everything a step can do, in the order of its checks (R80, R163). -/
theorem engineStep_cases (run : Instr → State → Host.Outcome State Fault Refusal) (s : State) :
    (s.block.frozen ∧ engineStep run s =
      .fault (.frozen s.block.fault.kind s.block.fault.addr s.block.fault.pc.toNat)) ∨
    (¬ s.block.frozen ∧ s.block.budgetSpent ∧ engineStep run s =
      s.goTo (s.block.raise .stepLimitExceeded s.block.regs.pc.toNat)) ∨
    (¬ s.block.frozen ∧ ¬ s.block.budgetSpent ∧ s.block.halted = true ∧
      engineStep run s = s.goTo s.block.countStep) ∨
    (¬ s.block.frozen ∧ ¬ s.block.budgetSpent ∧ s.block.halted = false ∧
      s.block.inCore s.block.regs.pc ∧ engineStep run s = run s.fetched s) ∨
    (¬ s.block.frozen ∧ ¬ s.block.budgetSpent ∧ s.block.halted = false ∧
      ¬ s.block.inCore s.block.regs.pc ∧ engineStep run s =
        s.goTo (s.block.raise .programCounterOutOfRange s.block.regs.pc.toNat)) := by
  unfold engineStep
  by_cases h1 : s.block.frozen
  · exact .inl ⟨h1, if_pos h1⟩
  · rw [if_neg h1]
    by_cases h2 : s.block.budgetSpent
    · exact .inr (.inl ⟨h1, h2, if_pos h2⟩)
    · rw [if_neg h2]
      by_cases h3 : s.block.halted = true
      · exact .inr (.inr (.inl ⟨h1, h2, h3, if_pos h3⟩))
      · rw [if_neg h3]
        have h3 : s.block.halted = false := by simpa using h3
        by_cases h4 : s.block.inCore s.block.regs.pc
        · exact .inr (.inr (.inr (.inl ⟨h1, h2, h3, h4, if_pos h4⟩)))
        · exact .inr (.inr (.inr (.inr ⟨h1, h2, h3, h4, if_neg h4⟩)))

/-- Dispatch under any hook commits what the instruction attempts. -/
theorem execWith_eq (hook : ExopHook) (i : Instr) (b : Block w) :
    execWith hook i ⟨w, b⟩ = .next ⟨w, b.commit (attemptWith hook i b)⟩ := by
  cases i <;> rfl

/-- With the default hook the dispatch is `exec`. -/
theorem execWith_exopHook : execWith exopHook = exec := by
  funext i s
  cases i <;> rfl

/-- `step` is the step of a block built with the default hook. -/
theorem stepWith_exopHook : stepWith exopHook = step := by
  funext s
  show engineStep (execWith exopHook) s = engineStep exec s
  rw [execWith_exopHook]

end Sys2Proof.Machine
end

