-- ==== Sys2Proof/Laws/PerInstr.lean ====
section
/-! SUPPORT. A statement for all instructions, made per instruction: the low four bits of an encoding are the
instruction's function code, at every width of at least 8 (R60, R65). -/
namespace Sys2Proof.Laws

/-- The function-code field of an instruction's encoding is its function code (R60). -/
def EncodeFn.Statement (i : Instr) : Prop :=
  ∀ (w : Nat) (fc : FnCode), 8 ≤ w → (splitWord (encode w fc i)).fn = i.fnOf fc

/-- The fields above bit 3 leave the function code as it is. -/
theorem packWord_fn (w : Nat) (t : Decoded) (hw : 8 ≤ w) : (splitWord (packWord w t)).fn = t.fn := by
  have hpow : ∀ k, 4 ≤ k → ∃ q, 2 ^ k = 16 * q := fun k hk =>
    ⟨2 ^ (k - 4), by rw [show (16 : Nat) = 2 ^ 4 from rfl, ← pow_add]; congr 1; omega⟩
  obtain ⟨q0, h0⟩ := hpow w (by omega)
  obtain ⟨q1, h1⟩ := hpow (w - 1) (by omega)
  obtain ⟨q2, h2⟩ := hpow (w - 2) (by omega)
  obtain ⟨q3, h3⟩ := hpow (w - 3) (by omega)
  obtain ⟨q4, h4⟩ := hpow (w - 4) (by omega)
  apply BitVec.eq_of_toNat_eq
  have hfn := t.fn.isLt
  simp only [splitWord, packWord, BitVec.extractLsb'_toNat, BitVec.toNat_ofNat, Nat.shiftRight_zero]
  rw [Nat.mod_mod_of_dvd _ ⟨q0, by rw [h0]⟩, h1, h2, h3, h4]
  have hsum : ∀ d p g i f n : Nat,
      d * (16 * q1) + p * (16 * q2) + g * (16 * q3) + i * (16 * q4) + f * 2 ^ 4 + n =
        n + 2 ^ 4 * (d * q1 + p * q2 + g * q3 + i * q4 + f) := fun d p g i f n => by ring
  rw [hsum, Nat.add_mul_mod_self_left]
  exact Nat.mod_eq_of_lt hfn

theorem EncodeFn.load (f : Fields) : EncodeFn.Statement (.load f) := fun w _ hw => packWord_fn w _ hw
theorem EncodeFn.store (f : Fields) : EncodeFn.Statement (.store f) := fun w _ hw => packWord_fn w _ hw
theorem EncodeFn.add (f : Fields) : EncodeFn.Statement (.add f) := fun w _ hw => packWord_fn w _ hw
theorem EncodeFn.jmp (f : Fields) : EncodeFn.Statement (.jmp f) := fun w _ hw => packWord_fn w _ hw
theorem EncodeFn.jmpt (f : Fields) : EncodeFn.Statement (.jmpt f) := fun w _ hw => packWord_fn w _ hw
theorem EncodeFn.jmpf (f : Fields) : EncodeFn.Statement (.jmpf f) := fun w _ hw => packWord_fn w _ hw
theorem EncodeFn.call (f : Fields) : EncodeFn.Statement (.call f) := fun w _ hw => packWord_fn w _ hw
theorem EncodeFn.exop (f : Fields) : EncodeFn.Statement (.exop f) := fun w _ hw => packWord_fn w _ hw
theorem EncodeFn.unknown (fn : FnField) (f : Fields) : EncodeFn.Statement (.unknown fn f) :=
  fun w _ hw => packWord_fn w _ hw

end Sys2Proof.Laws
end

