-- ==== Sys2Proof/Tests/Slice0.lean ====
section
/-! SUPPORT. Small tests, each one step on a small state, with results from 95_test_vectors.md (the vector's name
stands beside each); and one witness for each statement that has hypotheses. -/
namespace Sys2Proof.Tests

open Sys2Proof.Machine

/-! ### Helpers -/

/-- Fields from the modifier bits D, P, G, I. -/
def mods (d p g i : Bool) (disp : Nat := 0) : Fields :=
  { dBit := d, pBit := p, gBit := g, iBit := i, dispField := disp }

/-- The D bit alone: an absolute operand word. -/
def imm : Fields := mods true false false false

/-- No modifier. -/
def plain : Fields := mods false false false false

/-- A build with a core size, without a budget. -/
def cfgOf (coreSize : Nat) : Config := { Config.reference with coreSize := coreSize }

/-- A block of width 8 or 16 with the reset status. -/
def blockOf (w coreSize : Nat) (regs : Regs w) (core : Memory w) : Block w :=
  { Block.resetOf w (cfgOf coreSize) with regs := regs, core := core }

/-- Registers by number: pc, D, P, G, A, B. -/
def regsOf (w pc d p g a b : Nat) : Regs w :=
  { pc := BitVec.ofNat w pc, d := BitVec.ofNat w d, p := BitVec.ofNat w p, g := BitVec.ofNat w g,
    a := BitVec.ofNat w a, b := BitVec.ofNat w b }

/-- Registers as numbers, and a few words of core, after an outcome that has a next state. -/
def shown (o : Host.Outcome State Fault Refusal) (addrs : List Nat := []) :
    Option (List Nat × List Nat) :=
  match o with
  | .next t =>
    some ([t.block.regs.pc.toNat, t.block.regs.d.toNat, t.block.regs.p.toNat,
      t.block.regs.g.toNat, t.block.regs.a.toNat, t.block.regs.b.toNat],
      addrs.map fun x => (t.block.core.read x).toNat)
  | .fault _ => none
  | .refused _ => none

/-- halted, stepsTaken, and the fault record's code, address and pc. -/
def status (o : Host.Outcome State Fault Refusal) : Option (Bool × Nat × Nat × Nat × Nat) :=
  match o with
  | .next t =>
    some (t.block.halted, t.block.stepsTaken, t.block.fault.kind.code, t.block.fault.addr,
      t.block.fault.pc.toNat)
  | .fault _ => none
  | .refused _ => none

/-! ### WellFormed refuses what no word holds -/

theorem test_wf_disp_too_big_at_16 : (Instr.add (mods false false false false 256)).wf 16 .standard = false := by
  decide
theorem test_wf_disp_at_8 : (Instr.jmp (mods false false false false 1)).wf 8 .standard = false := by decide
theorem test_wf_unknown_known_code : (Instr.unknown 7 plain).wf 8 .standard = false := by decide
theorem test_wf_largest_disp : (Instr.load (mods true true true true 255)).wf 16 .standard = true := by decide
theorem test_wf_unknown : (Instr.unknown 8 plain).wf 8 .standard = true := by decide
theorem test_legal_refuses_width : ¬ (cfgOf 16).legal 7 := by decide
theorem test_legal_refuses_core : ¬ (cfgOf 15).legal 8 := by decide
theorem test_legal_refuses_budget : ¬ ({ cfgOf 16 with stepBudget := -2 } : Config).legal 8 := by decide
theorem test_legal_refuses_fnCode :
    ¬ ({ cfgOf 16 with fnCode := { FnCode.standard with exop := 0 } } : Config).legal 8 := by decide

/-! ### Decoding: words written out from R60 and 2.1 of the vectors -/

theorem test_decode_load : decode .standard (0b00000000 : Word 8) = .load plain := by decide
theorem test_decode_store : decode .standard (0x0091 : Word 16) = .store (mods false false false false 9) := by
  decide
theorem test_decode_add : decode .standard (0b11110010 : Word 8) = .add (mods true true true true) := by decide
theorem test_decode_add_indirect : decode .standard (0x1042 : Word 16) = .add (mods false false false true 4) := by
  decide
theorem test_decode_jmp : decode .standard (0x0FFFFFF3 : Word 32) = .jmp (mods false false false false 0xFFFFFF) := by
  decide
theorem test_decode_jmpt : decode .standard (0b10000100 : Word 8) = .jmpt imm := by decide
theorem test_decode_jmpf : decode .standard (0b01000101 : Word 8) = .jmpf (mods false true false false) := by
  decide
theorem test_decode_call : decode .standard (0x8FF6 : Word 16) = .call (mods true false false false 0xFF) := by
  decide
theorem test_decode_exop : decode .standard (0b00100111 : Word 8) = .exop (mods false false true false) := by
  decide
theorem test_decode_unknown : decode .standard (0b01011010 : Word 8) = .unknown 10 (mods false true false true) := by
  decide
theorem test_encode_call : encode 8 .standard (.call imm) = 0x86 := by decide
theorem test_encode_store : encode 16 .standard (.store (mods false false false false 9)) = 0x0091 := by decide
theorem test_table_word : decodeTableWord 8 0x92 = some (.add (mods true false false true)) := by decide
theorem test_fault_codes :
    [FaultKind.none, .stepLimitExceeded, .programCounterOutOfRange, .indirectAddressOutOfRange,
      .storeAddressOutOfRange, .callFrameOutOfRange, .unknownFunction, .loaderOverflow,
      .allocationFailure].map FaultKind.code = [0, 1, 2, 3, 4, 5, 6, 7, 8] := by decide

/-! ### The effective-address unit: EA6, EA9, EA12, EA14 -/

def ea6 : Block 8 := blockOf 8 256 (regsOf 8 5 0 0x10 0x20 0 0) [(5, 0xF2), (6, 0x33), (0x63, 0x7F)]
theorem test_ea6 : shown (step ⟨8, ea6⟩) = some ([7, 0x7F, 0x10, 0x20, 0x7F, 0], []) := by decide
theorem test_ea9 :
    shown (step ⟨8, blockOf 8 256 (regsOf 8 5 0 0x10 0x20 0 0) [(5, 0xC2), (6, 0xF8)]⟩) =
      some ([7, 8, 0x10, 0x20, 8, 0], []) := by decide
theorem test_ea12 :
    (shown (step ⟨16, blockOf 16 256 (regsOf 16 16 0 0 0 0 0) [(16, 0x0802)]⟩)).map
      (fun r => r.1[1]?) = some (some 0xFF91) := by decide
theorem test_ea14 :
    shown (step ⟨8, blockOf 8 256 (regsOf 8 0xFF 0 0 0 0 0) [(0xFF, 0x02)]⟩) =
      some ([0, 0, 0, 0, 0, 0], []) := by decide

/-! ### One or two steps for each instruction -/

/-- LD1 -/
theorem test_load : shown (step ⟨8, blockOf 8 256 (regsOf 8 0 0 0 0 0x12 0x34) [(0, 0x80), (1, 0x56)]⟩) =
    some ([2, 0x56, 0, 0, 0x56, 0x12], []) := by decide
/-- LD3 -/
theorem test_load_inline : shown (exec (.load plain) ⟨8, blockOf 8 256 (regsOf 8 0x20 0 0 0 9 0) []⟩) =
    some ([0x21, 0x21, 0, 0, 0x21, 9], []) := by decide
/-- ADD1 -/
theorem test_add_wraps : shown (step ⟨8, blockOf 8 256 (regsOf 8 0 0 0 0 0xFF 0) [(0, 0x82), (1, 1)]⟩) =
    some ([2, 1, 0, 0, 0, 0], []) := by decide
/-- L1-7 -/
theorem test_add_indirect :
    shown (step ⟨16, blockOf 16 256 (regsOf 16 0 0 0 0 0 0) [(0, 0x1042), (5, 0x2A)]⟩) =
      some ([1, 0x2A, 0, 0, 0x2A, 0], []) := by decide
/-- ST1 -/
theorem test_store : shown (step ⟨8, blockOf 8 16 (regsOf 8 0 0 0 0 0x5A 0) [(0, 0x81), (1, 0x0F)]⟩) [15, 1] =
    some ([2, 0x0F, 0, 0, 0x5A, 0], [0x5A, 0x0F]) := by decide
/-- ST2 -/
theorem test_store_fault :
    status (step ⟨8, blockOf 8 16 (regsOf 8 0 0 0 0 0x5A 0) [(0, 0x81), (1, 0x10)]⟩) =
      some (false, 0, 4, 0x10, 0) := by decide
/-- J3 -/
theorem test_jmp_indirect :
    shown (step ⟨8, blockOf 8 256 (regsOf 8 0 0 0 0 0 0) [(0, 0x93), (1, 0x30), (0x30, 0x50)]⟩) =
      some ([0x50, 0x50, 0, 0, 0, 0], []) := by decide
/-- J5 -/
theorem test_jmp_self :
    (shown (step ⟨16, blockOf 16 512 (regsOf 16 0x100 0 0 0 0 0) [(0x100, 0x0FF3)]⟩)).map
      (fun r => r.1[0]?) = some (some 0x100) := by decide
/-- T3 -/
theorem test_jmpt_taken : shown (step ⟨8, blockOf 8 256 (regsOf 8 4 0 0 0 0xFF 0) [(4, 0x84), (5, 2)]⟩) =
    some ([2, 2, 0, 0, 0xFF, 0], []) := by decide
/-- T2 -/
theorem test_jmpt_falls : shown (step ⟨8, blockOf 8 256 (regsOf 8 4 0 0 0 0 0) [(4, 0x84), (5, 2)]⟩) =
    some ([6, 2, 0, 0, 0, 0], []) := by decide
/-- F1 -/
theorem test_jmpf_taken : shown (step ⟨8, blockOf 8 256 (regsOf 8 4 0 0 0 0 0) [(4, 0x85), (5, 0x20)]⟩) =
    some ([0x20, 0x20, 0, 0, 0, 0], []) := by decide
/-- F2 -/
theorem test_jmpf_falls : shown (step ⟨8, blockOf 8 256 (regsOf 8 4 0 0 0 7 0) [(4, 0x85), (5, 0x20)]⟩) =
    some ([6, 0x20, 0, 0, 7, 0], []) := by decide
/-- K2: P counted twice -/
theorem test_call_double_p :
    shown (step ⟨8, blockOf 8 256 (regsOf 8 0 0 8 0 0x50 0) [(0, 0xC6), (1, 0x30)]⟩) [0x40, 0x41] =
      some ([0x50, 0x40, 0x40, 0, 0x50, 0], [8, 2]) := by decide
/-- K5: D +w 1 wraps -/
theorem test_call_wraps :
    shown (step ⟨8, blockOf 8 256 (regsOf 8 0x10 0 0 0 0x20 0) [(0x10, 0x86), (0x11, 0xFF)]⟩) [0xFF, 0] =
      some ([0x20, 0xFF, 0xFF, 0, 0x20, 0], [0, 0x12]) := by decide
/-- X2 -/
theorem test_exop : shown (step ⟨8, blockOf 8 256 (regsOf 8 0 0 0 0 0 0) [(0, 0x87), (1, 0x55)]⟩) =
    some ([2, 0x55, 0, 0, 0, 0], []) := by decide
/-- U1 -/
theorem test_unknown : status (step ⟨8, blockOf 8 256 (regsOf 8 0 0 0 0 0 0) [(0, 0x0F)]⟩) =
    some (true, 1, 6, 0, 0) := by decide
/-- U3 -/
theorem test_unknown_indirect_fault :
    status (step ⟨8, blockOf 8 16 (regsOf 8 0 0 0 0 0 0) [(0, 0x9F), (1, 0x20)]⟩) =
      some (false, 0, 3, 0x20, 0) := by decide

/-! ### Step checks, the host's port and the loader -/

/-- S1 -/
theorem test_budget_zero :
    status (step ⟨8, { blockOf 8 256 (regsOf 8 0 0 0 0 0 0) [] with cfg := { cfgOf 256 with stepBudget := 0 } }⟩) =
      some (false, 0, 1, 0, 0) := by decide
/-- S4 -/
theorem test_pc_range : status (step ⟨8, blockOf 8 16 (regsOf 8 16 0 0 0 0 0) []⟩) =
    some (false, 0, 2, 16, 16) := by decide
/-- The first instruction after reset, placed by the host. -/
theorem test_first_instruction : shown (step (State.reset.withFetchWord 8 0x07)) =
    some ([1, 1, 0, 0, 0, 0], []) := by decide
theorem test_build_refused : build 8 (cfgOf 15) = .refused .illegalParameter := rfl

/-- The words a text loads at width 8 with a core size, and the result. -/
def loaded (text : List Char) (coreSize start : Nat) : List (Nat × Nat) × LoadResult :=
  ((loaderRun text start ⟨8, Block.resetOf 8 (cfgOf coreSize)⟩).1.emitted.map fun e => (e.1, e.2.toNat),
    (loaderRun text start ⟨8, Block.resetOf 8 (cfgOf coreSize)⟩).2)

/-- LB -/
theorem test_loader_modifiers : loaded ['g', ' ', 'd', 'i', 'p', ' ', 'a'] 256 0 = ([(0, 0xF2)], .ok 1) := by
  decide
/-- LE -/
theorem test_loader_cut : loaded ['1', '2', '3', '4', '5'] 256 0 = ([(0, 0x34), (1, 5)], .ok 2) := by decide
/-- LF with LH -/
theorem test_loader_comment :
    loaded [';', 'a', '\n', 'd', '0', '5', 'a'] 256 0 = ([(0, 5), (1, 0x82)], .ok 2) := by decide
/-- LN -/
theorem test_loader_overflow :
    loaded ['1', ' ', '2', ' ', '3'] 16 14 = ([(14, 1), (15, 2)], .loaderOverflow 16) := by decide

/-! ### Witnesses: concrete states that meet the hypotheses of each statement -/

/-- ST1's block: STORE to the last core word. -/
def st1 : Block 8 := blockOf 8 16 (regsOf 8 0 0 0 0 0x5A 0) [(0, 0x81), (1, 0x0F)]
/-- ST2's block: STORE one past it. -/
def st2 : Block 8 := blockOf 8 16 (regsOf 8 0 0 0 0 0x5A 0) [(0, 0x81), (1, 0x10)]
/-- EA11's block: the operand word is one past core. -/
def ea11 : Block 8 := blockOf 8 16 (regsOf 8 15 0 0 0 0 0) [(15, 0x82)]
/-- EA10's block: the pointer is outside core. -/
def ea10 : Block 8 := blockOf 8 16 (regsOf 8 5 0 0 0 0 0) [(5, 0x92), (6, 0x20)]
/-- K3's and K4's blocks. -/
def k3 : Block 8 := blockOf 8 16 (regsOf 8 0 0 0 0 0 0) [(0, 0x86), (1, 0x0F)]
def k4 : Block 8 := blockOf 8 16 (regsOf 8 0 0 0 0 0 0) [(0, 0x86), (1, 0x12)]
/-- K5's block. -/
def k5 : Block 8 := blockOf 8 256 (regsOf 8 0x10 0 0 0 0x20 0) [(0x10, 0x86), (0x11, 0xFF)]
/-- J4's block: a jump out of a core of 16 words. -/
def j4 : Block 8 := blockOf 8 16 (regsOf 8 0 0 0 0 0 0) [(0, 0x83), (1, 0x20)]
/-- U1's block. -/
def u1 : Block 8 := blockOf 8 256 (regsOf 8 0 0 0 0 0 0) [(0, 0x0F)]
/-- A block with no step left, running or halted. -/
def spent : Block 8 := { u1 with cfg := { cfgOf 256 with stepBudget := 3 }, stepsTaken := 3 }
/-- A halted block, as U1 leaves it. -/
def haltedBlock : Block 8 :=
  { u1 with halted := true, stepsTaken := 1, fault := { kind := .unknownFunction, addr := 0, pc := 0 } }
/-- A frozen block, as P6 ends. -/
def frozenBlock : Block 8 :=
  { st2 with fault := { kind := .storeAddressOutOfRange, addr := 0x10, pc := 0 } }
/-- A hook that clears every register and sets a core word. -/
def clearingHook : ExopHook := fun w _ =>
  { regs := { pc := 0, d := 0, p := 0, g := 0, a := 0, b := 0 }, writes := [(3, BitVec.ofNat w 1)] }

theorem witness_DecodeOfEncodeIsTheInstruction :
    8 ≤ 16 ∧ FnCode.standard.injective ∧
      (Instr.call (mods true true true true 255)).wf 16 .standard = true ∧
      (Instr.unknown 15 plain).wf 8 .standard = true := by decide
theorem witness_CodecPacksTheSumAndLosesNothing :
    8 ≤ 8 ∧ (mods true true true true).wf 8 = true ∧ 8 ≤ 16 ∧ (mods false true false true 255).wf 16 = true := by
  decide
theorem witness_EveryWordDecodesAndEncodesBack : 8 ≤ 8 := by decide
theorem witness_FunctionCodeSelectsTheOperation :
    FnCode.standard.injective ∧ (splitWord (0xF7 : Word 8)).fn = FnCode.standard.codeOf .exop ∧
      (splitWord (0x08 : Word 8)).fn ≠ FnCode.standard.codeOf .load ∧
      ((splitWord (0x08 : Word 8)).fn ∉ FnCode.standard.codes) := by decide
theorem witness_FunctionCodeSelectsTheOperation_unknown :
    ∀ op : Op, (splitWord (0x08 : Word 8)).fn ≠ FnCode.standard.codeOf op := by
  intro op; cases op <;> decide
theorem witness_UnknownCodesAreThoseWithBitThreeSet :
    8 ≤ 8 ∧ (0x08 : Word 8).getLsbD 3 = true ∧ (0xF7 : Word 8).getLsbD 3 = false := by decide
/-- Both ends of both ranges: 0, 127, 128 (-128) and 255 (-1) at w = 16. -/
theorem witness_InlineDisplacementIsTwosComplement :
    8 < 16 ∧ 255 < 2 ^ (16 - 8) ∧ (sextDisp 16 0).toInt = 0 ∧ (sextDisp 16 127).toInt = 127 ∧
      (sextDisp 16 128).toInt = -128 ∧ (sextDisp 16 255).toInt = -1 := by decide
theorem witness_OperandFetchFaultsForEveryInstruction :
    imm.dBit = true ∧ ¬ ea11.inCore (ea11.regs.pc + 1) := by decide
theorem witness_IndirectionFaultsForEveryInstruction :
    operandWordInCore (mods true false false true) ea10 ∧ (mods true false false true).iBit = true ∧
      ¬ ea10.inCore (indexedOf (mods true false false true) ea10) := by decide

theorem witness_LoadPushesTheOperand : readable (mods true true true true) ea6 := by decide
theorem witness_AddAddsTheOperandModuloTheWord :
    readable (mods true true true true) ea6 ∧ readable plain ea11 := by decide
theorem witness_JmpGoesToTheOperand : readable imm j4 ∧ ¬ j4.inCore (operandOf imm j4) := by decide
theorem witness_JmptJumpsWhenTheAccumulatorIsNonzero :
    (readable imm st1 ∧ st1.regs.a ≠ 0) ∧ readable imm j4 ∧ j4.regs.a = 0 := by decide
theorem witness_JmpfJumpsWhenTheAccumulatorIsZero :
    (readable imm st1 ∧ st1.regs.a ≠ 0) ∧ readable imm j4 ∧ j4.regs.a = 0 := by decide
theorem witness_JmptAndJmpfAreComplements :
    (readable imm st1 ∧ st1.regs.a ≠ 0) ∧ readable imm j4 ∧ j4.regs.a = 0 := by decide
theorem witness_StoreWritesTheAccumulatorAtTheOperand :
    readable imm st1 ∧ st1.inCore (operandOf imm st1) ∧ operandOf imm st1 = 15 := by decide
theorem witness_StoreOutsideCoreRaises :
    readable imm st2 ∧ ¬ st2.inCore (operandOf imm st2) ∧ operandOf imm st2 = 16 := by decide
theorem witness_CallBuildsItsFrameAndGoesToTheAccumulator :
    8 ≤ 8 ∧ readable imm k5 ∧ k5.inCore (frameOf imm k5) ∧ k5.inCore (frameOf imm k5 + 1) ∧
      frameOf imm k5 = 0xFF := by decide
theorem witness_CallFrameOutsideCoreRaises :
    (readable imm k4 ∧ ¬ k4.inCore (frameOf imm k4)) ∧
      readable imm k3 ∧ k3.inCore (frameOf imm k3) ∧ ¬ k3.inCore (frameOf imm k3 + 1) := by decide
theorem witness_CallFrameHoldsTheCallersState :
    8 ≤ 8 ∧ readable plain k5 ∧ k5.inCore (frameOf plain k5) ∧ k5.inCore (frameOf plain k5 + 1) := by
  decide
/-- P3's return: the frame at 0x30, the jump at 0x12. -/
def p3 : Block 8 := blockOf 8 256 (regsOf 8 0x12 0 0x30 0 0x15 0) [(0x12, 0xD3), (0x13, 1), (0x31, 4)]
theorem witness_ReturnJumpGoesThroughTheFrame :
    p3.inCore (p3.regs.pc + 1) ∧ p3.core.read (p3.regs.pc + 1).toNat = 1 ∧
      p3.inCore (p3.regs.p + 1) ∧ shown (step ⟨8, p3⟩) = some ([4, 4, 0x30, 0, 0x15, 0], []) := by decide
theorem witness_ExopIsANoOpUnderTheDefaultHook : readable (mods true true true true) ea6 := by decide
theorem witness_ExopCommitsWhatAnyHookReturns :
    readable plain (Block.resetOf 8 Config.reference) ∧
      State.ready (State.reset.withFetchWord 8 0x07) ∧
      State.fetched (State.reset.withFetchWord 8 0x07) = .exop plain ∧
      shown (stepWith clearingHook (State.reset.withFetchWord 8 0x07)) [3, 0] =
        some ([0, 0, 0, 0, 0, 0], [1, 7]) := by decide
/-- A hook that names word 3 twice and one word outside core. -/
def twiceHook : ExopHook := fun w x =>
  { regs := x.regs, writes := [(3, BitVec.ofNat w 1), (256, BitVec.ofNat w 9), (3, BitVec.ofNat w 2)] }
theorem witness_ExopCommitsWhatAnyHookReturns_lastWrite :
    readable plain (Block.resetOf 8 Config.reference) ∧
      (twiceHook 8 ⟨⟨7, plain⟩, regsOf 8 1 1 0 0 0 0, 256, []⟩).writes =
        [(3, 1), (256, 9)] ++ (3, 2) :: [] ∧
      3 < Config.reference.coreSize ∧ Config.reference.coreSize ≤ 256 ∧
      shown (stepWith twiceHook (State.reset.withFetchWord 8 0x07)) [3, 256] =
        some ([1, 1, 0, 0, 0, 0], [2, 0]) := by decide
theorem witness_UnknownCodeHaltsSoftly : readable (mods true true true true) ea6 ∧ readable plain u1 := by
  decide
/-- L1-2's words. -/
def l12 : Block 8 :=
  blockOf 8 256 (regsOf 8 0 0 0 0 0 0) [(0, 0x82), (1, 3), (2, 0x82), (3, 4), (4, 0x82), (5, 0xFE)]
theorem witness_ImmediateAddsAccumulateTheirSum :
    ∀ k (h : k < [(3 : Word 8), 4, 0xFE].length),
      l12.inCore (l12.regs.pc + BitVec.ofNat 8 (2 * k) + 1) ∧
        l12.core.read (l12.regs.pc + BitVec.ofNat 8 (2 * k) + 1).toNat = [(3 : Word 8), 4, 0xFE][k] := by
  decide
theorem witness_OnlyStoredWordsOfCoreChange :
    ∃ c : Block 8, exec (.store imm) ⟨8, st1⟩ = .next ⟨8, c⟩ ∧ 14 ∉ storedAt st1 (.store imm) :=
  ⟨_, rfl, by decide⟩
theorem witness_EachRegisterHasOnlyItsWriters :
    (∃ c : Block 8, exec (.load imm) ⟨8, st1⟩ = .next ⟨8, c⟩ ∧ c.regs.a ≠ st1.regs.a ∧
      c.regs.b ≠ st1.regs.b) ∧
    (∃ c : Block 8, exec (.call imm) ⟨8, k5⟩ = .next ⟨8, c⟩ ∧ c.regs.p ≠ k5.regs.p) ∧
    ∃ c : Block 8, exec (.unknown 15 plain) ⟨8, u1⟩ = .next ⟨8, c⟩ ∧ c.halted ≠ u1.halted :=
  ⟨⟨_, rfl, by decide⟩, ⟨_, rfl, by decide⟩, ⟨_, rfl, by decide⟩⟩
theorem witness_NoAddressFaultsWhereCoreCoversTheWords :
    2 ^ 8 ≤ spent.cfg.coreSize ∧ ∃ c : Block 8, step ⟨8, spent⟩ = .next ⟨8, c⟩ ∧ c.frozen :=
  ⟨by decide, _, rfl, by decide⟩
theorem witness_InstructionsIgnoreTheOldD :
    ∃ c : Block 8, exec (.add imm) ⟨8, l12⟩ = .next ⟨8, c⟩ ∧ c.stepsTaken = l12.stepsTaken + 1 :=
  ⟨_, rfl, by decide⟩
theorem witness_NoInstructionReadsB : ∃ c : Block 8, exec (.add imm) ⟨8, l12⟩ = .next ⟨8, c⟩ := ⟨_, rfl⟩
/-- ST3's block: the inline form stores into the next word. -/
def st3 : Block 8 := blockOf 8 256 (regsOf 8 3 0 0 0 0x77 0) [(3, 1)]
theorem witness_TheNextFetchSeesAStore :
    readable plain st3 ∧ st3.inCore (operandOf plain st3) ∧
      operandOf plain st3 = fallThroughOf plain st3 := by decide
theorem witness_StepRunsTheDecodedInstruction :
    State.ready ⟨8, st1⟩ ∧ decode st1.cfg.fnCode (st1.core.read st1.regs.pc.toNat) = .store imm := by decide
theorem witness_SpentBudgetRaisesStepLimitExceeded :
    (¬ spent.frozen ∧ spent.cfg.stepBudget ≠ -1 ∧ spent.cfg.stepBudget ≤ spent.stepsTaken) ∧
      (¬ u1.frozen ∧ u1.cfg.stepBudget = -1) ∧
      ¬ ({ spent with stepsTaken := 2 } : Block 8).frozen ∧
        ((2 : Nat) : Int) < ({ spent with stepsTaken := 2 } : Block 8).cfg.stepBudget := by decide
theorem witness_HaltedStepOnlyCounts :
    ¬ haltedBlock.frozen ∧ ¬ haltedBlock.budgetSpent ∧ haltedBlock.halted = true := by decide
/-- S4's block: pc = CORE_SIZE. -/
def s4 : Block 8 := blockOf 8 16 (regsOf 8 16 0 0 0 0 0) []
theorem witness_PcOutsideCoreRaises :
    ¬ s4.frozen ∧ ¬ s4.budgetSpent ∧ s4.halted = false ∧ ¬ s4.inCore s4.regs.pc := by decide
theorem witness_StepCommitsAllOrNothing :
    (State.ready ⟨8, st1⟩ ∧ ∃ t, stepWith clearingHook ⟨8, st1⟩ = .next t) ∧
      (haltedBlock.halted = true ∧ ∃ t, stepWith clearingHook ⟨8, haltedBlock⟩ = .next t) ∧
      (State.ready ⟨8, st2⟩ ∧ ∃ t, stepWith clearingHook ⟨8, st2⟩ = .next t ∧ t.block.frozen) ∧
      ∃ t, stepWith clearingHook ⟨8, s4⟩ = .next t ∧ t.block.frozen :=
  ⟨⟨by decide, _, rfl⟩, ⟨by decide, _, rfl⟩, ⟨by decide, _, rfl, by decide⟩, _, rfl, by decide⟩
theorem witness_FatalFaultFreezesUntilReset :
    frozenBlock.frozen ∧ ∃ c : Block 8, step ⟨8, st2⟩ = .next ⟨8, c⟩ ∧ c.frozen :=
  ⟨by decide, _, rfl, by decide⟩
theorem witness_StepOutcomeSaysWhatTheStepDid :
    (frozenBlock.frozen ∧ ¬ st2.frozen ∧ ¬ haltedBlock.frozen ∧ ¬ u1.frozen ∧ ¬ st1.frozen) ∧
      stepOutcome ⟨8, st2⟩ = some (.fault .storeAddressOutOfRange 16 0) ∧
      stepOutcome ⟨8, haltedBlock⟩ = some .haltedNoop ∧
      stepOutcome ⟨8, u1⟩ = some .softUnknownFunction ∧ stepOutcome ⟨8, st1⟩ = some .ok := by decide
theorem witness_HaltedIsSetByUnknownAndClearedByReset :
    (∃ t, stepWith clearingHook ⟨8, u1⟩ = .next t ∧ u1.halted = false ∧ t.block.halted = true) ∧
      ∃ t, stepWith clearingHook ⟨8, haltedBlock⟩ = .next t ∧ haltedBlock.halted = true :=
  ⟨⟨_, rfl, by decide⟩, ⟨_, rfl, by decide⟩⟩
theorem witness_JumpOutsideCoreFaultsAtTheNextFetch :
    readable imm j4 ∧ ¬ j4.inCore (operandOf imm j4) ∧ ¬ j4.frozen ∧ j4.halted = false ∧
      j4.cfg.stepBudget = -1 := by decide
theorem witness_FiniteBudgetEndsEveryRun : (⟨8, spent⟩ : State).block.cfg.stepBudget = (3 : Nat) := by decide
theorem witness_StepKeepsTheInvariant :
    (State.Inv ⟨8, st1⟩ ∧ ∃ t, step ⟨8, st1⟩ = .next t) ∧
      State.Inv ⟨8, haltedBlock⟩ ∧ ∃ t, stepWith clearingHook ⟨8, haltedBlock⟩ = .next t :=
  ⟨⟨by decide, _, rfl⟩, by decide, _, rfl⟩
theorem witness_HostTransactionsKeepTheInvariant :
    (∃ t, build 16 (cfgOf 64) = .next t) ∧ State.Inv ⟨8, st1⟩ ∧
      (∃ t, hostWriteCore ⟨8, st1⟩ 15 0xFF = .next t) ∧ ∃ t, hostWriteReg ⟨8, st1⟩ .g 0x20 = .next t :=
  ⟨⟨_, rfl⟩, by decide, ⟨_, rfl⟩, ⟨_, rfl⟩⟩
theorem witness_CanonicalCoresThatReadAlikeAreEqual :
    Memory.wf 16 st1.core = true ∧ Memory.wf 16 ((st1.core.write 5 1).write 5 0) = true ∧
      (∀ x, st1.core.read x = ((st1.core.write 5 1).write 5 0).read x) := by
  refine ⟨by decide, by decide, fun x => ?_⟩
  rw [Memory.read_write, Memory.read_write]
  split
  · next h => subst h; decide
  · rfl
theorem witness_IllegalParametersAreRefused :
    build 8 (cfgOf 16) ≠ .refused .illegalParameter ∧ build 7 (cfgOf 16) = .refused .illegalParameter :=
  ⟨fun h => (by cases h), rfl⟩
theorem witness_HostWritesRegistersOnlyBeforeTheFirstStep :
    (st1.stepsTaken = 0 ∧ st1.fault.kind = .none) ∧ ∃ t, step ⟨8, st1⟩ = .next t :=
  ⟨by decide, _, rfl⟩
theorem witness_HostCoreWriteIsReadBack : 15 < st1.cfg.coreSize ∧ 14 ≠ 15 := by decide
theorem witness_LoadingIsDeterministicAndLocal :
    st1.cfg.coreSize = st2.cfg.coreSize ∧ st1.cfg.fnCode = st2.cfg.fnCode ∧ st1.core ≠ st2.core := by
  decide
/-- LN's text: three words at 14 fit a core of 17 words and overflow one of 16; two fit it. -/
theorem witness_LoaderOverflowsAtTheFirstWordOutsideCore :
    (load ['1', ' ', '2', ' ', '3'] 14
      ⟨8, { st1 with cfg := { st1.cfg with coreSize := 17 } }⟩).2 = .ok 3 ∧
    st1.cfg.coreSize < 14 + 3 ∧
    (load ['1', ' ', '2'] 14
      ⟨8, { st1 with cfg := { st1.cfg with coreSize := 17 } }⟩).2 = .ok 2 ∧
    14 + 2 ≤ st1.cfg.coreSize := by decide
/-- A text without a word, and a start above CORE_SIZE: the overflow is at the start. -/
theorem witness_LoaderOverflowsAtTheFirstWordOutsideCore_edges :
    (load [' ', ';', '1'] 40
      ⟨8, { st1 with cfg := { st1.cfg with coreSize := 64 } }⟩).2 = .ok 0 ∧
    (load ['1'] 40 ⟨8, { st1 with cfg := { st1.cfg with coreSize := 64 } }⟩).2 = .ok 1 ∧
    st1.cfg.coreSize < 40 + 1 ∧ (load ['1'] 40 ⟨8, st1⟩).2 = .loaderOverflow 40 := by decide
theorem witness_EmittedWordsStandInCore :
    1 < (loaderRun ['d', 'a', '0', '5'] 0 ⟨8, st1⟩).1.emitted.length := by decide
theorem witness_ExecutedWordHasItsTraceEvent :
    State.ready ⟨8, u1⟩ ∧ ¬ State.ready ⟨8, haltedBlock⟩ ∧
      (stepEvents (State.reset.withFetchWord 8 0x07).block).length = 2 := by decide
/-- EXOP with an operand word outside core, at the last word of core 16. -/
def x1 : Block 8 := blockOf 8 16 (regsOf 8 15 0 0 0 0 0) [(15, 0x87)]
theorem witness_ExecutedWordHasItsTraceEvent_exop :
    (State.ready (State.reset.withFetchWord 8 0x07) ∧
      State.fetched (State.reset.withFetchWord 8 0x07) = .exop plain ∧
      readable plain (State.reset.withFetchWord 8 0x07).block) ∧
    State.ready ⟨8, x1⟩ ∧ State.fetched ⟨8, x1⟩ = .exop imm ∧ ¬ readable imm x1 ∧
    ∀ f, State.fetched ⟨8, u1⟩ ≠ .exop f :=
  ⟨by decide, by decide, by decide, by decide, fun _ h => (by cases h)⟩

/-- The loader between tokens with d and i pending, as R147 leaves it after `di`. -/
def ld : LoaderState 8 := ⟨2, mods true false false true, [], false, [], []⟩
theorem witness_LoaderMnemonicEmitsItsInstruction :
    ld.betweenTokens ∧ ('a', Op.add) ∈ mnemonicLetters ∧
      (load ['d', 'i', 'a', 'a'] 0 ⟨8, st1⟩).1.block.core.read 0 = 0x92 ∧
      (load ['d', 'i', 'a', 'a'] 0 ⟨8, st1⟩).1.block.core.read 1 = 0x02 := by decide
/-- R140's example: "12345" at w = 8 emits 0x34 and 0x05. -/
theorem witness_LoaderHexRunEmitsItsValue :
    ld.betweenTokens ∧ ([1, 2, 3, 4] : List (Fin 16)).length = 2 * ((8 + 3) / 4) ∧
      (∀ c ∈ ([] : List Char).head?, c ∉ hexDigits) ∧
      (loaderRun ['1', '2', '3', '4', '5'] 0 ⟨8, st1⟩).1.emitted = [(0, 0x34), (1, 0x05)] :=
  ⟨by decide, by decide, by simp, rfl⟩
theorem witness_LoaderEmitsNothingForOtherText :
    ld.betweenTokens ∧ '\n' ∉ ['a', '1'] ∧
      (loaderRun ['d', ';', 'a', '\n', 'b', 'l'] 0 ⟨8, st1⟩).1.emitted = [(0, 0x80)] := by decide
/-- R143's lowercase hex, an uppercase letter past F, and a space. -/
theorem witness_LoaderEmitsNothingForOtherText_ignored :
    isIgnored 'b' ∧ isIgnored 'G' ∧ isIgnored ' ' := by
  simp [isIgnored, hexDigits, mnemonicLetters]

end Sys2Proof.Tests
end

section
/-! Construction (R19): `build` decided by `Config.legal`, and what an illegal parameter is. -/
namespace Sys2Proof.Machine

/-- R19's legal ranges read from the other side: which parameter is outside its range. -/
theorem not_legal_iff (w : Nat) (cfg : Config) :
    ¬ cfg.legal w ↔
      w < 8 ∨ cfg.coreSize < 16 ∨ cfg.stepBudget < -1 ∨ ¬ cfg.fnCode.injective := by
  simp only [Config.legal, not_and_or, Nat.not_le, Int.not_le]

theorem build_of_legal {w : Nat} {cfg : Config} (h : cfg.legal w) :
    build w cfg = .next ⟨w, Block.resetOf w cfg⟩ :=
  if_pos h

theorem build_of_not_legal {w : Nat} {cfg : Config} (h : ¬ cfg.legal w) :
    build w cfg = .refused .illegalParameter :=
  if_neg h

theorem build_refused_iff_not_legal (w : Nat) (cfg : Config) :
    build w cfg = .refused .illegalParameter ↔ ¬ cfg.legal w := by
  refine ⟨fun hrefused hlegal => ?_, build_of_not_legal⟩
  rw [build_of_legal hlegal] at hrefused
  cases hrefused

/-- Settles O50: the refusal is exactly an illegal parameter, and a legal build is the reset block. -/
theorem illegalParametersAreRefused : Obligations.IllegalParametersAreRefused := by
  intro w cfg
  constructor
  · exact (build_refused_iff_not_legal w cfg).trans (not_legal_iff w cfg)
  · intro hbuilt
    have hlegal : cfg.legal w := not_not.mp (mt build_of_not_legal hbuilt)
    exact build_of_legal hlegal

end Sys2Proof.Machine
end

section
/-! Reset (R35, R180): what each piece of state reads as in a reset block, and `hostReset` as the reset
block of the state's own width and construction values. -/
namespace Sys2Proof.Machine

variable {w : Nat} (cfg : Config)

@[simp] theorem Block.resetOf_cfg : (Block.resetOf w cfg).cfg = cfg := rfl
@[simp] theorem Block.resetOf_halted : (Block.resetOf w cfg).halted = false := rfl
@[simp] theorem Block.resetOf_stepsTaken : (Block.resetOf w cfg).stepsTaken = 0 := rfl
@[simp] theorem Block.resetOf_fault : (Block.resetOf w cfg).fault = ⟨.none, 0, 0⟩ := rfl
@[simp] theorem Block.resetOf_core : (Block.resetOf w cfg).core = [] := rfl

@[simp] theorem Block.readReg_resetOf (r : RegName) : (Block.resetOf w cfg).readReg r = 0 := by
  cases r <;> rfl

@[simp] theorem Block.read_core_resetOf (x : Nat) : (Block.resetOf w cfg).core.read x = 0 := by
  rw [Block.resetOf_core, Memory.read_nil]

/-- Reset forgets all of the state except its word width and construction values (R180). -/
theorem hostReset_eq (s : State) :
    hostReset s = ⟨s.wordBits, Block.resetOf s.wordBits s.block.cfg⟩ := rfl

/-- The reference build's reset state is already reset. -/
theorem hostReset_reset : hostReset State.reset = State.reset := by
  rw [hostReset_eq, State.reset, Block.resetOf_cfg]

/-- Settles O47: each part is read off the reset block that `hostReset` leaves. -/
theorem resetValuesAreZero : Obligations.ResetValuesAreZero := by
  intro s
  rw [hostReset_eq]
  exact ⟨Block.readReg_resetOf _, Block.read_core_resetOf _, Block.resetOf_halted _,
    Block.resetOf_stepsTaken _, Block.resetOf_fault _, Block.resetOf_cfg _, hostReset_reset⟩

end Sys2Proof.Machine
end

section
/-! The codec's round trips (R60, R65). The rule's sum adds fields that occupy disjoint bit ranges, so it
is also their OR, and one lemma says what every bit of a packed word is; both round trips read it bit by
bit. -/
namespace Sys2Proof

/-- `s` is below `2^k` and is both the OR `o` and the XOR `e` of the terms it is the sum of. -/
structure DisjointSum (k s o e : Nat) : Prop where
  lt : s < 2 ^ k
  eq_or : s = o
  eq_xor : s = e

theorem mul_two_pow_add_eq_xor {k s : Nat} (hs : s < 2 ^ k) (x : Nat) :
    x * 2 ^ k + s = x * 2 ^ k ^^^ s := by
  apply Nat.eq_of_testBit_eq
  intro j
  rw [Nat.testBit_xor, Nat.testBit_mul_two_pow, Nat.mul_comm, Nat.testBit_two_pow_mul_add x hs]
  split
  · next hlow => simp [Nat.not_le.mpr hlow]
  · next hhigh =>
    have hclear : s.testBit j = false :=
      Nat.testBit_lt_two_pow (hs.trans_le (Nat.pow_le_pow_right (by decide) (not_lt.mp hhigh)))
    simp [not_lt.mp hhigh, hclear]

/-- A field of `m` bits placed just above a disjoint sum makes a disjoint sum. -/
theorem DisjointSum.field {m k n x s o e : Nat} (h : DisjointSum k s o e) (hx : x < 2 ^ m)
    (hn : m + k = n) : DisjointSum n (x * 2 ^ k + s) (x * 2 ^ k ||| o) (x * 2 ^ k ^^^ e) where
  lt := by
    calc x * 2 ^ k + s < (x + 1) * 2 ^ k := by rw [Nat.succ_mul]; exact Nat.add_lt_add_left h.lt _
      _ ≤ 2 ^ m * 2 ^ k := Nat.mul_le_mul_right _ hx
      _ = 2 ^ n := by rw [← Nat.pow_add, hn]
  eq_or := by rw [← h.eq_or, Nat.mul_comm, Nat.two_pow_add_eq_or_of_lt h.lt]
  eq_xor := by rw [← h.eq_xor, mul_two_pow_add_eq_xor h.lt]

/-- A modifier bit placed just above a disjoint sum makes a disjoint sum. -/
theorem DisjointSum.bit {k n s o e : Nat} (h : DisjointSum k s o e) (b : Bool) (hn : 1 + k = n) :
    DisjointSum n (b.toNat * 2 ^ k + s) (b.toNat * 2 ^ k ||| o) (b.toNat * 2 ^ k ^^^ e) :=
  h.field b.toNat_lt hn

theorem Fields.wf_iff (w : Nat) (f : Fields) : f.wf w = true ↔ f.dispField < 2 ^ dispBits w :=
  decide_eq_true_iff

/-- R65's sum of fields in range is below `2^w` and is their OR and their XOR. -/
theorem disjointSum_fields {w : Nat} (hw : 8 ≤ w) {t : Decoded} (ht : t.fields.wf w = true) :
    DisjointSum w
      (t.fields.dBit.toNat * 2 ^ (w - 1) + t.fields.pBit.toNat * 2 ^ (w - 2)
        + t.fields.gBit.toNat * 2 ^ (w - 3) + t.fields.iBit.toNat * 2 ^ (w - 4)
        + t.fields.dispField * 2 ^ 4 + t.fn.toNat)
      (t.fields.dBit.toNat * 2 ^ (w - 1) ||| t.fields.pBit.toNat * 2 ^ (w - 2)
        ||| t.fields.gBit.toNat * 2 ^ (w - 3) ||| t.fields.iBit.toNat * 2 ^ (w - 4)
        ||| t.fields.dispField * 2 ^ 4 ||| t.fn.toNat)
      (t.fields.dBit.toNat * 2 ^ (w - 1) ^^^ t.fields.pBit.toNat * 2 ^ (w - 2)
        ^^^ t.fields.gBit.toNat * 2 ^ (w - 3) ^^^ t.fields.iBit.toNat * 2 ^ (w - 4)
        ^^^ t.fields.dispField * 2 ^ 4 ^^^ t.fn.toNat) := by
  have hfn : DisjointSum 4 t.fn.toNat t.fn.toNat t.fn.toNat := ⟨t.fn.isLt, rfl, rfl⟩
  have hdisp := hfn.field (n := w - 4) ((t.fields.wf_iff w).mp ht) (by unfold dispBits; omega)
  have hmods := (((hdisp.bit (n := w - 3) t.fields.iBit (by omega)).bit (n := w - 2) t.fields.gBit
    (by omega)).bit (n := w - 1) t.fields.pBit (by omega)).bit (n := w) t.fields.dBit (by omega)
  simpa only [Nat.add_assoc, Nat.or_assoc, Nat.xor_assoc] using hmods

/-- No carry leaves the word: packing fields in range loses nothing of R65's sum. -/
theorem toNat_packWord {w : Nat} (hw : 8 ≤ w) {t : Decoded} (ht : t.fields.wf w = true) :
    (packWord w t).toNat =
      t.fields.dBit.toNat * 2 ^ (w - 1) + t.fields.pBit.toNat * 2 ^ (w - 2)
        + t.fields.gBit.toNat * 2 ^ (w - 3) + t.fields.iBit.toNat * 2 ^ (w - 4)
        + t.fields.dispField * 2 ^ 4 + t.fn.toNat :=
  (BitVec.toNat_ofNat _ w).trans (Nat.mod_eq_of_lt (disjointSum_fields hw ht).lt)

theorem testBit_toNat_mul_two_pow (b : Bool) (k j : Nat) :
    (b.toNat * 2 ^ k).testBit j = (decide (j = k) && b) := by
  have hpos : k ≤ j ∧ j - k = 0 ↔ j = k := by omega
  rw [Nat.testBit_mul_two_pow, Nat.testBit_bool_toNat, ← Bool.and_assoc, ← Bool.decide_and,
    decide_eq_decide.mpr hpos]

/-- Every bit of a packed word, by R60's positions. -/
theorem getLsbD_packWord {w : Nat} (hw : 8 ≤ w) {t : Decoded} (ht : t.fields.wf w = true) (j : Nat) :
    (packWord w t).getLsbD j =
      (decide (j = w - 1) && t.fields.dBit || decide (j = w - 2) && t.fields.pBit
        || decide (j = w - 3) && t.fields.gBit || decide (j = w - 4) && t.fields.iBit
        || decide (4 ≤ j) && t.fields.dispField.testBit (j - 4) || t.fn.getLsbD j) := by
  rw [← BitVec.testBit_toNat, toNat_packWord hw ht, (disjointSum_fields hw ht).eq_or]
  simp only [Nat.testBit_or, testBit_toNat_mul_two_pow, Nat.testBit_mul_two_pow t.fields.dispField,
    BitVec.testBit_toNat]

/-- Below the modifier bits stand the displacement field and the function code alone. -/
theorem getLsbD_packWord_low {w : Nat} (hw : 8 ≤ w) {t : Decoded} (ht : t.fields.wf w = true) {j : Nat}
    (hj : j < w - 4) :
    (packWord w t).getLsbD j =
      (decide (4 ≤ j) && t.fields.dispField.testBit (j - 4) || t.fn.getLsbD j) := by
  have h1 : j ≠ w - 1 := by omega
  have h2 : j ≠ w - 2 := by omega
  have h3 : j ≠ w - 3 := by omega
  have h4 : j ≠ w - 4 := by omega
  simp [getLsbD_packWord hw ht, h1, h2, h3, h4]

/-- A displacement in range has no bit at or above its field's width. -/
theorem Fields.testBit_dispField_of_wf {w : Nat} {f : Fields} (hf : f.wf w = true) {k : Nat}
    (hk : dispBits w ≤ k) : f.dispField.testBit k = false :=
  Nat.testBit_lt_two_pow (((f.wf_iff w).mp hf).trans_le (Nat.pow_le_pow_right (by decide) hk))

/-- From bit w-4 up stand the modifier bits alone. -/
theorem getLsbD_packWord_high {w : Nat} (hw : 8 ≤ w) {t : Decoded} (ht : t.fields.wf w = true) {j : Nat}
    (hj : w - 4 ≤ j) :
    (packWord w t).getLsbD j =
      (decide (j = w - 1) && t.fields.dBit || decide (j = w - 2) && t.fields.pBit
        || decide (j = w - 3) && t.fields.gBit || decide (j = w - 4) && t.fields.iBit) := by
  have hdisp : t.fields.dispField.testBit (j - 4) = false :=
    Fields.testBit_dispField_of_wf ht (by unfold dispBits; omega)
  have hfn : t.fn.getLsbD j = false := BitVec.getLsbD_of_ge _ _ (by omega)
  simp [getLsbD_packWord hw ht, hdisp, hfn]

/-- Each modifier bit stands at its position of R60. -/
theorem getLsbD_packWord_modifiers {w : Nat} (hw : 8 ≤ w) {t : Decoded} (ht : t.fields.wf w = true) :
    (packWord w t).getLsbD (w - 1) = t.fields.dBit ∧ (packWord w t).getLsbD (w - 2) = t.fields.pBit ∧
    (packWord w t).getLsbD (w - 3) = t.fields.gBit ∧ (packWord w t).getLsbD (w - 4) = t.fields.iBit := by
  have hbit := fun j => getLsbD_packWord_high hw ht (j := j)
  obtain ⟨n, rfl⟩ := Nat.exists_eq_add_of_le' hw
  refine ⟨?_, ?_, ?_, ?_⟩
  all_goals
    rw [hbit _ (by omega)]
    simp

theorem splitWord_fields_wf {w : Nat} (ir : Word w) : (splitWord ir).fields.wf w = true :=
  (Fields.wf_iff w _).mpr (ir.extractLsb' 4 (dispBits w)).isLt

theorem getLsbD_splitWord_fn {w : Nat} (ir : Word w) (j : Nat) :
    (splitWord ir).fn.getLsbD j = (decide (j < 4) && ir.getLsbD j) := by
  simp only [splitWord, BitVec.getLsbD_extractLsb', Nat.zero_add]

theorem testBit_splitWord_dispField {w : Nat} (ir : Word w) (k : Nat) :
    (splitWord ir).fields.dispField.testBit k = (decide (k < dispBits w) && ir.getLsbD (4 + k)) := by
  simp only [splitWord, BitVec.testBit_toNat, BitVec.getLsbD_extractLsb']

/-- R65's `encode(decode(x)) = x`: each bit of the word lies in exactly one field. -/
theorem packWord_splitWord {w : Nat} (hw : 8 ≤ w) (ir : Word w) : packWord w (splitWord ir) = ir := by
  have hwf := splitWord_fields_wf ir
  apply BitVec.eq_of_getLsbD_eq
  intro j hj
  obtain hlow | hhigh := Nat.lt_or_ge j (w - 4)
  · rw [getLsbD_packWord_low hw hwf hlow, testBit_splitWord_dispField, getLsbD_splitWord_fn]
    obtain hfn | hdisp := Nat.lt_or_ge j 4
    · simp [hfn, Nat.not_le.mpr hfn]
    · have hwidth : j - 4 < dispBits w := by unfold dispBits; omega
      simp [hdisp, Nat.not_lt.mpr hdisp, hwidth, Nat.add_sub_cancel' hdisp]
  · obtain ⟨hd, hp, hg, hi⟩ := getLsbD_packWord_modifiers hw hwf
    obtain rfl | rfl | rfl | rfl : j = w - 1 ∨ j = w - 2 ∨ j = w - 3 ∨ j = w - 4 := by omega
    exacts [hd, hp, hg, hi]

theorem dispField_splitWord_packWord {w : Nat} (hw : 8 ≤ w) {t : Decoded} (ht : t.fields.wf w = true) :
    (splitWord (packWord w t)).fields.dispField = t.fields.dispField := by
  apply Nat.eq_of_testBit_eq
  intro k
  rw [testBit_splitWord_dispField]
  obtain hin | hout := Nat.lt_or_ge k (dispBits w)
  · rw [getLsbD_packWord_low hw ht (by unfold dispBits at hin; omega)]
    simp [hin]
  · simp [Nat.not_lt.mpr hout, Fields.testBit_dispField_of_wf ht hout]

/-- R65's `decode(encode(t)) = t` for every tuple in range. -/
theorem splitWord_packWord {w : Nat} (hw : 8 ≤ w) {t : Decoded} (ht : t.fields.wf w = true) :
    splitWord (packWord w t) = t := by
  have hfn := Laws.packWord_fn w t hw
  have hdisp := dispField_splitWord_packWord hw ht
  obtain ⟨hd, hp, hg, hi⟩ := getLsbD_packWord_modifiers hw ht
  obtain ⟨fn, d, p, g, i, f⟩ := t
  simp only [splitWord, Decoded.mk.injEq, Fields.mk.injEq] at hfn hdisp ⊢
  exact ⟨hfn, hd, hp, hg, hi, hdisp⟩

/-- Settles O2: the terms of R65's sum are disjoint, and each round trip is read off the bits. -/
theorem codecPacksTheSumAndLosesNothing : Obligations.CodecPacksTheSumAndLosesNothing := by
  intro w hw
  refine ⟨fun t ht => ?_, packWord_splitWord hw, fun t ht => splitWord_packWord hw ht⟩
  have hsum := toNat_packWord hw ht
  have hdisjoint := disjointSum_fields hw ht
  exact ⟨hsum, hsum.trans hdisjoint.eq_or, hsum.trans hdisjoint.eq_xor⟩

end Sys2Proof
end

section
/-! The effective-address unit in one formula (R86-R89), and what executing an instruction attempts once
the unit's answer is known (R84, R91, R92). -/
namespace Sys2Proof.Machine

variable {w : Nat}

/-- The base fetch of a step: past the instruction's words with the base in D, or the fault of R87 at
pc0 +w 1. -/
theorem fetchBase_advancePc (f : Fields) (b : Block w) :
    fetchBase f b.advancePc =
      if operandWordInCore f b then .done ((b.setPc (fallThroughOf f b)).setD (baseOf f b))
      else .raised .programCounterOutOfRange (b.regs.pc + 1).toNat := by
  rcases fetchBase_cases f b.advancePc with ⟨hd, hin, hfetch⟩ | ⟨hd, hout, hfetch⟩ | ⟨hd, hfetch⟩
  · have hword : operandWordInCore f b := fun _ => hin
    rw [hfetch, if_pos hword, fallThroughOf, baseOf, if_pos hd, if_pos hd]
    rfl
  · rw [hfetch, if_neg fun hword => hout (hword hd)]
    rfl
  · have hword : operandWordInCore f b := fun htwo => absurd htwo (by simp [hd])
    rw [hfetch, if_pos hword]
    simp [fallThroughOf, baseOf, hd, Block.setD, Block.setPc]

/-- Both additions to the base give the indexed address (R88). -/
theorem addGlobal_addFrame_base (f : Fields) (b : Block w) :
    addGlobal f (addFrame f ((b.setPc (fallThroughOf f b)).setD (baseOf f b))) =
      (b.setPc (fallThroughOf f b)).setD (indexedOf f b) := by
  rw [addGlobal_eq, addFrame_eq]
  rfl

/-- The last stage, on the indexed address: the operand in D, or the fault of R89. -/
theorem indirect_indexed (f : Fields) (b : Block w) :
    indirect f ((b.setPc (fallThroughOf f b)).setD (indexedOf f b)) =
      if pointerInCore f b then .done { b with regs := regsAfterUnit f b }
      else .raised .indirectAddressOutOfRange (indexedOf f b).toNat := by
  rcases indirect_cases f ((b.setPc (fallThroughOf f b)).setD (indexedOf f b)) with
    ⟨hi, hin, hind⟩ | ⟨hi, hout, hind⟩ | ⟨hi, hind⟩
  · have hpointer : pointerInCore f b := fun _ => hin
    rw [hind, if_pos hpointer, regsAfterUnit, operandOf, if_pos hi]
    rfl
  · rw [hind, if_neg fun hpointer => hout (hpointer hi)]
    rfl
  · have hpointer : pointerInCore f b := fun hptr => absurd hptr (by simp [hi])
    rw [hind, if_pos hpointer]
    simp [regsAfterUnit, operandOf, hi, Block.setD, Block.setPc]

/-- Settles O8: the base fetch, the two additions and the indirection, each by its own equation. -/
theorem effectiveAddressUnitResult : Obligations.EffectiveAddressUnitResult := by
  intro w b f
  rw [effectiveAddress, fetchBase_advancePc]
  by_cases hword : operandWordInCore f b
  · rw [if_pos hword, if_pos hword, Attempt.andThen_done, addGlobal_addFrame_base, indirect_indexed]
  · rw [if_neg hword, if_neg hword, Attempt.andThen_raised]

/-- An instruction attempts its arm on the unit's registers, or raises what the unit raises, whatever
its function code (R91). -/
theorem attemptWith_eq (hook : ExopHook) (i : Instr) (b : Block w) :
    attemptWith hook i b =
      if operandWordInCore i.fields b then
        if pointerInCore i.fields b then
          armWith hook b.regs.pc i { b with regs := regsAfterUnit i.fields b }
        else .raised .indirectAddressOutOfRange (indexedOf i.fields b).toNat
      else .raised .programCounterOutOfRange (b.regs.pc + 1).toNat := by
  rw [attemptWith, effectiveAddressUnitResult w b i.fields]
  split
  · split <;> rfl
  · rfl

/-- `exec` commits what the instruction attempts under the default hook (R93). -/
theorem exec_eq_commit (i : Instr) (b : Block w) :
    exec i ⟨w, b⟩ = .next ⟨w, b.commit (attemptWith exopHook i b)⟩ := by
  rw [← execWith_exopHook, execWith_eq]

/-- Settles O9: the unit comes before every arm, and its first stage is the operand fetch. -/
theorem operandFetchFaultsForEveryInstruction : Obligations.OperandFetchFaultsForEveryInstruction := by
  intro w b i hd hout
  have hword : ¬ operandWordInCore i.fields b := fun hword => hout (hword hd)
  rw [exec_eq_commit, attemptWith_eq, if_neg hword]
  rfl

end Sys2Proof.Machine
end

section
/-! What an attempt leaves alone when it is done, and which kinds it raises when it is not (R93, R162). -/
namespace Sys2Proof.Machine

variable {w : Nat}

/-- JMPT's arm writes pc alone (R112). -/
theorem jmptArm_eq (b : Block w) :
    jmptArm b = .done (b.setPc (if accTrue b.regs.a then b.regs.d else b.regs.pc)) := by
  unfold jmptArm
  split <;> rfl

/-- JMPF's arm writes pc alone (R113). -/
theorem jmpfArm_eq (b : Block w) :
    jmpfArm b = .done (b.setPc (if accTrue b.regs.a then b.regs.pc else b.regs.d)) := by
  unfold jmpfArm
  split <;> rfl

/-- What every computation of a step leaves alone: the construction values, the step count, and the
fault record but for the soft one of R128. -/
structure Block.Computes (start d : Block w) : Prop where
  cfg : d.cfg = start.cfg
  stepsTaken : d.stepsTaken = start.stepsTaken
  fault : d.fault = start.fault ∨ d.fault.kind = .unknownFunction

theorem Block.Computes.not_frozen {start d : Block w} (h : start.Computes d) (hstart : ¬ start.frozen) :
    ¬ d.frozen := by
  rcases h.fault with hsame | hsoft
  · rwa [Block.frozen, hsame]
  · rw [Block.frozen, hsoft]
    decide

theorem armWith_computes {hook : ExopHook} {pc0 : Word w} {i : Instr} {e d : Block w}
    (h : armWith hook pc0 i e = .done d) : e.Computes d := by
  cases i with
  | store f =>
    rcases storeArm_cases e with ⟨-, harm⟩ | ⟨-, harm⟩ <;> cases harm.symm.trans h
    exact ⟨rfl, rfl, .inl rfl⟩
  | call f =>
    rcases callArm_cases e with ⟨-, -, harm⟩ | ⟨-, -, harm⟩ | ⟨-, harm⟩ <;> cases harm.symm.trans h
    exact ⟨rfl, rfl, .inl rfl⟩
  | jmpt f => cases (jmptArm_eq e).symm.trans h; exact ⟨rfl, rfl, .inl rfl⟩
  | jmpf f => cases (jmpfArm_eq e).symm.trans h; exact ⟨rfl, rfl, .inl rfl⟩
  | load f | add f | jmp f | exop f => cases h; exact ⟨rfl, rfl, .inl rfl⟩
  | unknown fn f => cases h; exact ⟨rfl, rfl, .inr rfl⟩

/-- Only STORE's and CALL's arms raise (R162). -/
theorem armWith_raised {hook : ExopHook} {pc0 : Word w} {i : Instr} {e : Block w} {k : FaultKind}
    {addr : Nat} (h : armWith hook pc0 i e = .raised k addr) : k.isAddressFault = true := by
  cases i with
  | store f => rcases storeArm_cases e with ⟨-, harm⟩ | ⟨-, harm⟩ <;> cases harm.symm.trans h; rfl
  | call f =>
    rcases callArm_cases e with ⟨-, -, harm⟩ | ⟨-, -, harm⟩ | ⟨-, harm⟩ <;>
      cases harm.symm.trans h <;> rfl
  | jmpt f => cases (jmptArm_eq e).symm.trans h
  | jmpf f => cases (jmpfArm_eq e).symm.trans h
  | load f | add f | jmp f | exop f | unknown fn f => cases h

theorem attemptWith_computes {hook : ExopHook} {i : Instr} {b d : Block w}
    (h : attemptWith hook i b = .done d) : b.Computes d := by
  rw [attemptWith_eq] at h
  split at h
  · split at h
    · obtain ⟨hcfg, hsteps, hfault⟩ := armWith_computes h
      exact ⟨hcfg, hsteps, hfault⟩
    · cases h
  · cases h

/-- Every fault that executing an instruction raises names an address outside core. -/
theorem attemptWith_raised {hook : ExopHook} {i : Instr} {b : Block w} {k : FaultKind} {addr : Nat}
    (h : attemptWith hook i b = .raised k addr) : k.isAddressFault = true := by
  rw [attemptWith_eq] at h
  split at h
  · split at h
    · exact armWith_raised h
    · cases h; rfl
  · cases h; rfl

theorem FaultKind.isFatal_of_isAddressFault {k : FaultKind} (h : k.isAddressFault = true) :
    k.isFatal = true := by
  revert h
  cases k <;> decide

theorem FaultKind.ne_stepLimitExceeded_of_isAddressFault {k : FaultKind}
    (h : k.isAddressFault = true) : k ≠ .stepLimitExceeded := by
  rintro rfl
  cases h

/-- What a block commits never records a spent budget, which only the step's own check does (R81). -/
theorem commit_attemptWith_fault {hook : ExopHook} {i : Instr} {b : Block w} (hfrozen : ¬ b.frozen) :
    (b.commit (attemptWith hook i b)).fault.kind ≠ .stepLimitExceeded := by
  rcases hattempt : attemptWith hook i b with d | ⟨k, addr⟩
  · exact fun hkind => (attemptWith_computes hattempt).not_frozen hfrozen (congrArg _ hkind)
  · exact FaultKind.ne_stepLimitExceeded_of_isAddressFault (attemptWith_raised hattempt)

end Sys2Proof.Machine
end

section
/-! The step, one equation for each check that decides it (R80-R83, R163), and R93's commit for the
whole step. -/
namespace Sys2Proof.Machine

variable {w : Nat} {b : Block w} {run : Instr → State → Host.Outcome State Fault Refusal}

/-- R81's check comes before the halted and the pc-range checks. -/
theorem engineStep_of_budgetSpent (hfrozen : ¬ b.frozen) (hspent : b.budgetSpent) :
    engineStep run ⟨w, b⟩ = .next ⟨w, b.raise .stepLimitExceeded b.regs.pc.toNat⟩ :=
  (if_neg hfrozen).trans (if_pos hspent)

/-- R82: the halted no-op. -/
theorem engineStep_of_halted (hfrozen : ¬ b.frozen) (hbudget : ¬ b.budgetSpent)
    (hhalted : b.halted = true) : engineStep run ⟨w, b⟩ = .next ⟨w, b.countStep⟩ :=
  (if_neg hfrozen).trans ((if_neg hbudget).trans (if_pos hhalted))

/-- R83: the last check before the fetch. -/
theorem engineStep_of_pc_outside (hfrozen : ¬ b.frozen) (hbudget : ¬ b.budgetSpent)
    (hrunning : b.halted = false) (hpc : ¬ b.inCore b.regs.pc) :
    engineStep run ⟨w, b⟩ = .next ⟨w, b.raise .programCounterOutOfRange b.regs.pc.toNat⟩ :=
  (if_neg hfrozen).trans ((if_neg hbudget).trans
    ((if_neg (Bool.not_eq_true _ ▸ hrunning)).trans (if_neg hpc)))

/-- A step of an unfrozen block whose budget is not spent records no spent budget. -/
theorem step_of_budget_left (hfrozen : ¬ b.frozen) (hbudget : ¬ b.budgetSpent) :
    ∃ c : Block w, step ⟨w, b⟩ = .next ⟨w, c⟩ ∧ c.fault.kind ≠ .stepLimitExceeded := by
  have hkind : b.fault.kind ≠ .stepLimitExceeded := fun hkind => hfrozen (congrArg _ hkind)
  rcases engineStep_cases exec ⟨w, b⟩ with ⟨hf, -⟩ | ⟨-, hs, -⟩ | ⟨-, -, -, hstep⟩ |
    ⟨-, -, -, -, hstep⟩ | ⟨-, -, -, -, hstep⟩
  · exact absurd hf hfrozen
  · exact absurd hs hbudget
  · exact ⟨b.countStep, hstep, hkind⟩
  · exact ⟨_, hstep.trans (exec_eq_commit _ b), commit_attemptWith_fault hfrozen⟩
  · exact ⟨_, hstep, by simp⟩

/-- Settles O35: the budget's check decides the step before any other but the freeze, and no other part
of a step records its fault. -/
theorem spentBudgetRaisesStepLimitExceeded : Obligations.SpentBudgetRaisesStepLimitExceeded := by
  intro w b hfrozen
  refine ⟨fun hfinite hreached => engineStep_of_budgetSpent hfrozen ⟨hfinite, hreached⟩,
    fun hleft => step_of_budget_left hfrozen ?_⟩
  rintro ⟨hfinite, hreached⟩
  rcases hleft with hinfinite | hbelow
  · exact hfinite hinfinite
  · exact absurd hreached (not_le.mpr hbelow)

/-- Settles O38: each branch of the step that has a next state commits or raises, and on a ready block
the attempt of the fetched instruction says which. -/
theorem stepCommitsAllOrNothing : Obligations.StepCommitsAllOrNothing := by
  intro hook w b t hnext
  rcases engineStep_cases (execWith hook) ⟨w, b⟩ with ⟨-, hstep⟩ | ⟨-, hspent, hstep⟩ |
    ⟨hfrozen, -, hhalted, hstep⟩ | ⟨hfrozen, hbudget, hrunning, hpc, hstep⟩ | ⟨-, -, -, hpc, hstep⟩
  · cases hstep.symm.trans hnext
  · cases hstep.symm.trans hnext
    exact ⟨_, rfl, .inr ⟨_, _, rfl, rfl, fun ⟨_, hbudget, _, _⟩ => absurd hspent hbudget⟩⟩
  · cases hstep.symm.trans hnext
    exact ⟨_, rfl, .inl ⟨rfl, hfrozen, rfl, .inl ⟨hhalted, rfl⟩⟩⟩
  · rw [execWith_eq] at hstep
    cases hstep.symm.trans hnext
    rcases hattempt : attemptWith hook (State.fetched ⟨w, b⟩) b with d | ⟨kind, addr⟩
    · have hd : b.Computes d := attemptWith_computes hattempt
      exact ⟨_, rfl, .inl ⟨congrArg (· + 1) hd.stepsTaken, hd.not_frozen hfrozen, hd.cfg,
        .inr ⟨⟨hfrozen, hbudget, hrunning, hpc⟩, d, rfl, rfl⟩⟩⟩
    · have hfatal := FaultKind.isFatal_of_isAddressFault (attemptWith_raised hattempt)
      exact ⟨_, rfl, .inr ⟨kind, addr, hfatal, rfl, fun _ => rfl⟩⟩
  · cases hstep.symm.trans hnext
    exact ⟨_, rfl, .inr ⟨_, _, rfl, rfl, fun ⟨_, _, _, hin⟩ => absurd hin hpc⟩⟩

/-- The outcome of a halted step that leaves no fatal record (R95). -/
theorem outcomeOf_halted {t : State} (hfrozen : ¬ t.block.frozen) : outcomeOf true t = .haltedNoop :=
  (if_neg hfrozen).trans (if_pos rfl)

/-- Settles O36: the step is the count alone, and the outcome is read off it. -/
theorem haltedStepOnlyCounts : Obligations.HaltedStepOnlyCounts := by
  intro w b hfrozen hbudget hhalted
  have hstep : step ⟨w, b⟩ = .next ⟨w, b.countStep⟩ := engineStep_of_halted hfrozen hbudget hhalted
  refine ⟨hstep, ?_⟩
  rw [stepOutcome, hstep, outcomeFor, hhalted, outcomeOf_halted hfrozen]

/-- Settles O37: the pc-range check raises at pc0. -/
theorem pcOutsideCoreRaises : Obligations.PcOutsideCoreRaises := by
  intro w b hfrozen hbudget hrunning hpc
  exact engineStep_of_pc_outside hfrozen hbudget hrunning hpc

end Sys2Proof.Machine
end

section
/-! The loader on another core (R147, R148). A load reads no core, so what it leaves on one core it leaves
on any other, with the words it emitted written there: one commutation, walked through the loader's
functions in their order. -/
namespace Sys2Proof.Machine

variable {w : Nat}

/-- The loader as it would stand had it started on the core `c`: the words emitted so far written into it. -/
def LoaderState.onCore (coreSize : Nat) (c : Memory w) (l : LoaderState w) : LoaderState w :=
  { l with core := c.writeAll coreSize l.emitted }

/-- Where the load would stand had it started on the core `c`. -/
def LoaderRun.onCore (coreSize : Nat) (c : Memory w) : LoaderRun w → LoaderRun w
  | .running l => .running (l.onCore coreSize c)
  | .overflow l addr => .overflow (l.onCore coreSize c) addr

theorem LoaderRun.onCore_andThen {coreSize : Nat} {c : Memory w} (r : LoaderRun w)
    {k k' : LoaderState w → LoaderRun w}
    (hk : ∀ l : LoaderState w, k' (l.onCore coreSize c) = (k l).onCore coreSize c) :
    (r.onCore coreSize c).andThen k' = (r.andThen k).onCore coreSize c := by
  cases r with
  | running l => exact hk l
  | overflow l addr => rfl

theorem LoaderRun.finish_onCore (coreSize : Nat) (c : Memory w) (start : Nat) (r : LoaderRun w) :
    (r.onCore coreSize c).finish start =
      ((r.finish start).1.onCore coreSize c, (r.finish start).2) := by
  cases r <;> rfl

/-- One more word emitted is one more word written (R144). -/
theorem emitWord_onCore (coreSize : Nat) (c : Memory w) (l : LoaderState w) (v : Word w) :
    emitWord coreSize (l.onCore coreSize c) v = (emitWord coreSize l v).onCore coreSize c := by
  by_cases hcore : l.cursor < coreSize
  · have hwrite : c.writeAll coreSize (l.emitted ++ [(l.cursor, v)]) =
        (c.writeAll coreSize l.emitted).write l.cursor v := by
      rw [Memory.writeAll_append, Memory.writeAll, if_pos hcore, Memory.writeAll]
    simp [emitWord, LoaderRun.onCore, LoaderState.onCore, hcore, hwrite]
  · simp [emitWord, LoaderRun.onCore, LoaderState.onCore, hcore]

theorem flushRun_onCore (coreSize : Nat) (c : Memory w) (l : LoaderState w) :
    flushRun coreSize (l.onCore coreSize c) = (flushRun coreSize l).onCore coreSize c := by
  have hrun : (l.onCore coreSize c).run = l.run := rfl
  unfold flushRun
  rw [hrun]
  split
  · rfl
  · exact emitWord_onCore coreSize c { l with run := [] } _

section
variable {cfg cfg' : Config} (hsize : cfg.coreSize = cfg'.coreSize) (hcode : cfg.fnCode = cfg'.fnCode)
include hsize hcode

theorem tokenChar_onCore (c : Memory w) (l : LoaderState w) (ch : Char) :
    tokenChar cfg' (l.onCore cfg'.coreSize c) ch =
      (tokenChar cfg l ch).onCore cfg'.coreSize c := by
  have hmods : (l.onCore cfg'.coreSize c).mods = l.mods := rfl
  unfold tokenChar
  rw [hsize, hcode, hmods]
  split
  · rfl
  · cases modsAfter l.mods ch with
    | some m => rfl
    | none =>
      cases opOfLetter ch with
      | some op =>
        dsimp only
        rw [emitWord_onCore]
        exact LoaderRun.onCore_andThen _ fun _ => rfl
      | none => rfl

theorem loadChar_onCore (c : Memory w) (l : LoaderState w) (ch : Char) :
    loadChar cfg' (l.onCore cfg'.coreSize c) ch =
      (loadChar cfg l ch).onCore cfg'.coreSize c := by
  have hrun : (l.onCore cfg'.coreSize c).run = l.run := rfl
  have hcomment : (l.onCore cfg'.coreSize c).inComment = l.inComment := rfl
  unfold loadChar
  rw [hsize, hrun, hcomment]
  split
  · split <;> rfl
  · cases hexDigit ch with
    | some n =>
      dsimp only
      split
      · exact flushRun_onCore cfg'.coreSize c { l with run := l.run ++ [n] }
      · rfl
    | none =>
      dsimp only
      rw [flushRun_onCore]
      exact LoaderRun.onCore_andThen _ fun l => tokenChar_onCore hsize hcode c l ch

theorem loadChars_onCore (c : Memory w) (text : List Char) (l : LoaderState w) :
    loadChars cfg' text (l.onCore cfg'.coreSize c) =
      (loadChars cfg text l).onCore cfg'.coreSize c := by
  induction text generalizing l with
  | nil => rw [loadChars, loadChars, hsize]; exact flushRun_onCore ..
  | cons ch rest ih =>
    rw [loadChars, loadChars, loadChar_onCore hsize hcode]
    exact LoaderRun.onCore_andThen _ ih

end

/-- R148: the run on another block of the same CORE_SIZE and FN_CODE is the same run on that block's
core. -/
theorem loaderRun_onCore {b b' : Block w} (hsize : b.cfg.coreSize = b'.cfg.coreSize)
    (hcode : b.cfg.fnCode = b'.cfg.fnCode) (text : List Char) (start : Nat) :
    loaderRun text start ⟨w, b'⟩ =
      ((loaderRun text start ⟨w, b⟩).1.onCore b'.cfg.coreSize b'.core,
        (loaderRun text start ⟨w, b⟩).2) :=
  calc loaderRun text start ⟨w, b'⟩
      = (loadChars b'.cfg text
          ((loaderStart start b.core).onCore b'.cfg.coreSize b'.core)).finish start := rfl
    _ = ((loadChars b.cfg text (loaderStart start b.core)).onCore b'.cfg.coreSize b'.core).finish
          start := by rw [loadChars_onCore hsize hcode]
    _ = _ := LoaderRun.finish_onCore ..

/-- The core a load leaves is the core it found with the emitted words written. -/
theorem loaderRun_core (b : Block w) (text : List Char) (start : Nat) :
    (loaderRun text start ⟨w, b⟩).1.core =
      b.core.writeAll b.cfg.coreSize (loaderRun text start ⟨w, b⟩).1.emitted :=
  congrArg (fun r => LoaderState.core r.1) (loaderRun_onCore (b := b) (b' := b) rfl rfl text start)

end Sys2Proof.Machine
end

section
/-! What every load keeps (R144): the induction over a text made once, for a predicate that scanning and
emitting keep, and the addresses of the emitted words by it. -/
namespace Sys2Proof.Machine

variable {w : Nat}

/-- The loader's state where the load stands, overflowed or not. -/
def LoaderRun.state : LoaderRun w → LoaderState w
  | .running l => l
  | .overflow l _ => l

theorem LoaderRun.finish_fst (start : Nat) (r : LoaderRun w) : (r.finish start).1 = r.state := by
  cases r <;> rfl

/-- A predicate kept by the two things a load does: it scans, which changes its flags alone, and it emits
a word that lands in core. -/
structure LoaderInvariant (coreSize : Nat) (P : LoaderState w → Prop) : Prop where
  scan : ∀ l mods run inComment, P l →
    P { l with mods := mods, run := run, inComment := inComment }
  emit : ∀ l v, P l → l.cursor < coreSize →
    P { l with
      core := l.core.write l.cursor v
      cursor := l.cursor + 1
      emitted := l.emitted ++ [(l.cursor, v)] }

namespace LoaderInvariant

theorem andThen {P : LoaderState w → Prop} {r : LoaderRun w} {k : LoaderState w → LoaderRun w}
    (hr : P r.state) (hk : ∀ l, P l → P (k l).state) : P (r.andThen k).state := by
  cases r with
  | running l => exact hk l hr
  | overflow l addr => exact hr

variable {cfg : Config} {P : LoaderState w → Prop} (h : LoaderInvariant cfg.coreSize P)
include h

theorem emitWord {l : LoaderState w} (hl : P l) (v : Word w) :
    P (emitWord cfg.coreSize l v).state := by
  unfold Machine.emitWord
  split
  · next hcore => exact h.emit l v hl hcore
  · exact hl

theorem flushRun {l : LoaderState w} (hl : P l) : P (flushRun cfg.coreSize l).state := by
  unfold Machine.flushRun
  split
  · exact hl
  · exact h.emitWord (h.scan l _ _ _ hl) _

theorem tokenChar {l : LoaderState w} (hl : P l) (ch : Char) : P (tokenChar cfg l ch).state := by
  unfold Machine.tokenChar
  split
  · exact h.scan l _ _ _ hl
  · split
    · exact h.scan l _ _ _ hl
    · split
      · exact andThen (h.emitWord hl _) fun l hl => h.scan l _ _ _ hl
      · exact hl

theorem loadChar {l : LoaderState w} (hl : P l) (ch : Char) : P (loadChar cfg l ch).state := by
  unfold Machine.loadChar
  split
  · split
    · exact h.scan l _ _ _ hl
    · exact hl
  · split
    · split
      · exact h.flushRun (h.scan l _ _ _ hl)
      · exact h.scan l _ _ _ hl
    · exact andThen (h.flushRun hl) fun l hl => h.tokenChar hl ch

theorem loadChars (text : List Char) {l : LoaderState w} (hl : P l) :
    P (loadChars cfg text l).state := by
  induction text generalizing l with
  | nil => exact h.flushRun hl
  | cons ch rest ih => exact andThen (h.loadChar hl ch) fun _ => ih

end LoaderInvariant

/-- The words emitted since `start` stand at consecutive addresses, up to the cursor (R144). -/
structure LoaderState.EmitsFrom (start : Nat) (l : LoaderState w) : Prop where
  cursor : l.cursor = start + l.emitted.length
  addresses : l.emitted.map Prod.fst = List.range' start l.emitted.length

theorem emitsFrom_loaderInvariant (coreSize start : Nat) :
    LoaderInvariant coreSize (LoaderState.EmitsFrom (w := w) start) where
  scan _ _ _ _ hl := ⟨hl.cursor, hl.addresses⟩
  emit l v hl _ := by
    constructor
    · simp [hl.cursor, Nat.add_assoc]
    · simp [hl.cursor, hl.addresses, List.range'_concat]

theorem emitsFrom_loaderRun (text : List Char) (start : Nat) (b : Block w) :
    (loaderRun text start ⟨w, b⟩).1.EmitsFrom start := by
  have hstart : (loaderStart start b.core).EmitsFrom start := ⟨rfl, rfl⟩
  rw [loaderRun, LoaderRun.finish_fst]
  exact (emitsFrom_loaderInvariant b.cfg.coreSize start).loadChars text hstart

/-- No word is emitted at an address below the start or from the cursor on. -/
theorem LoaderState.EmitsFrom.not_mem_emitted {start x : Nat} {l : LoaderState w}
    (h : l.EmitsFrom start) (hx : x < start ∨ l.cursor ≤ x) (v : Word w) : (x, v) ∉ l.emitted := by
  intro hmem
  have haddr : x ∈ List.range' start l.emitted.length := h.addresses ▸ List.mem_map_of_mem hmem
  rw [List.mem_range'_1, ← h.cursor] at haddr
  omega

end Sys2Proof.Machine
end

section
/-! A list of writes made twice, and the locality and repeatability of a load (R148). -/
namespace Sys2Proof.Machine

variable {w : Nat}

/-- The address `x` is either left alone by a list of writes, on every core, or ends with one word, the
same on every core. -/
theorem Memory.read_writeAll_unchanged_or_constant (n : Nat) (ws : List (Nat × Word w)) (x : Nat) :
    (∀ m : Memory w, (m.writeAll n ws).read x = m.read x) ∨
      ∃ v, ∀ m : Memory w, (m.writeAll n ws).read x = v := by
  induction ws with
  | nil => exact .inl fun _ => rfl
  | cons e rest ih =>
    obtain ⟨addr, u⟩ := e
    rcases ih with hsame | ⟨v, hv⟩
    · by_cases hhit : addr < n ∧ x = addr
      · obtain ⟨hcore, rfl⟩ := hhit
        exact .inr ⟨u, fun m => by rw [Memory.writeAll, hsame, if_pos hcore, Memory.read_write_same]⟩
      · refine .inl fun m => ?_
        rw [Memory.writeAll, hsame]
        split
        · next hcore => exact Memory.read_write_other m u fun hx => hhit ⟨hcore, hx⟩
        · rfl
    · exact .inr ⟨v, fun m => hv _⟩

/-- Making a list of writes again changes no word. -/
theorem Memory.read_writeAll_twice (n : Nat) (ws : List (Nat × Word w)) (m : Memory w) (x : Nat) :
    ((m.writeAll n ws).writeAll n ws).read x = (m.writeAll n ws).read x := by
  rcases Memory.read_writeAll_unchanged_or_constant n ws x with hsame | ⟨v, hv⟩
  · exact hsame _
  · rw [hv, hv]

/-- A second load of the same text at the same start writes the same words again. -/
theorem load_load_core (b : Block w) (text : List Char) (start : Nat) :
    (load text start (load text start ⟨w, b⟩).1).1.block.core =
      (b.core.writeAll b.cfg.coreSize (loaderRun text start ⟨w, b⟩).1.emitted).writeAll b.cfg.coreSize
        (loaderRun text start ⟨w, b⟩).1.emitted := by
  have hsecond := loaderRun_onCore (b := b)
    (b' := { b with core := (loaderRun text start ⟨w, b⟩).1.core }) rfl rfl text start
  have hcore := congrArg (fun r => LoaderState.core r.1) hsecond
  exact hcore.trans (congrArg (fun c => Memory.writeAll b.cfg.coreSize c _)
    (loaderRun_core b text start))

/-- Settles O53: the run on `b'` is the run on `b` on another core, and the core a load leaves is the one
it found with the emitted words written, at addresses from the start to the cursor. -/
theorem loadingIsDeterministicAndLocal : Obligations.LoadingIsDeterministicAndLocal := by
  intro w b b' text start hsize hcode
  have hrun := loaderRun_onCore hsize hcode text start
  refine ⟨(congrArg Prod.snd hrun).symm, (congrArg (fun r => LoaderState.emitted r.1) hrun).symm, rfl,
    fun x hx => ?_, fun x => ?_⟩
  · have hfree := (emitsFrom_loaderRun text start b).not_mem_emitted hx
    rw [loaderRun_core]
    exact Memory.read_writeAll_other _ (.inl hfree) b.core
  · calc Memory.read (w := w) (load text start (load text start ⟨w, b⟩).1).1.block.core x
        = _ := congrArg (Memory.read · x) (load_load_core b text start)
      _ = _ := Memory.read_writeAll_twice ..
      _ = Memory.read (w := w) (load text start ⟨w, b⟩).1.block.core x :=
        congrArg (Memory.read · x) (loaderRun_core b text start).symm

end Sys2Proof.Machine
end

section
/-! The decoder's dispatch (R92): FN_CODE read backwards, and decode and encode as the codec's two round
trips (R65) with the dispatch around them. -/
namespace Sys2Proof

/-! ### FN_CODE and its inverse -/

/-- The operations in the order of R63's table. -/
def Op.all : List Op := [.load, .store, .add, .jmp, .jmpt, .jmpf, .call, .exop]

theorem Op.mem_all (op : Op) : op ∈ Op.all := by
  cases op <;> decide

theorem FnCode.codes_eq_map (fc : FnCode) : fc.codes = Op.all.map fc.codeOf := rfl

theorem FnCode.mem_codes {fc : FnCode} {fn : FnField} : fn ∈ fc.codes ↔ ∃ op, fc.codeOf op = fn := by
  simp [FnCode.codes_eq_map, Op.mem_all]

/-- R11: no two operations share a code. -/
theorem FnCode.codeOf_injective {fc : FnCode} (hfc : fc.injective) : Function.Injective fc.codeOf :=
  fun op op' h => List.inj_on_of_nodup_map (fc.codes_eq_map ▸ hfc) op.mem_all op'.mem_all h

theorem FnCode.codeOf_of_opOf_eq_some {fc : FnCode} {fn : FnField} {op : Op}
    (h : fc.opOf fn = some op) : fc.codeOf op = fn := by
  unfold FnCode.opOf at h
  split_ifs at h with hload hstore hadd hjmp hjmpt hjmpf hcall hexop
  all_goals
    cases h
    exact Eq.symm ‹fn = _›

theorem FnCode.opOf_eq_none {fc : FnCode} {fn : FnField} : fc.opOf fn = none ↔ fn ∉ fc.codes := by
  unfold FnCode.opOf FnCode.codes
  split_ifs <;> simp_all

/-- Under an injective FN_CODE every operation is selected by its own code. -/
theorem FnCode.opOf_codeOf {fc : FnCode} (hfc : fc.injective) (op : Op) :
    fc.opOf (fc.codeOf op) = some op := by
  cases hop : fc.opOf (fc.codeOf op) with
  | none => exact absurd (FnCode.mem_codes.mpr ⟨op, rfl⟩) (FnCode.opOf_eq_none.mp hop)
  | some op' => rw [FnCode.codeOf_injective hfc (FnCode.codeOf_of_opOf_eq_some hop)]

/-! ### Instructions as an operation, or an unknown code, with its fields -/

theorem Instr.eq_op_or_unknown (i : Instr) :
    (∃ op f, i = Op.instr op f) ∨ ∃ fn f, i = .unknown fn f := by
  cases i with
  | load f => exact .inl ⟨.load, f, rfl⟩
  | store f => exact .inl ⟨.store, f, rfl⟩
  | add f => exact .inl ⟨.add, f, rfl⟩
  | jmp f => exact .inl ⟨.jmp, f, rfl⟩
  | jmpt f => exact .inl ⟨.jmpt, f, rfl⟩
  | jmpf f => exact .inl ⟨.jmpf, f, rfl⟩
  | call f => exact .inl ⟨.call, f, rfl⟩
  | exop f => exact .inl ⟨.exop, f, rfl⟩
  | unknown fn f => exact .inr ⟨fn, f, rfl⟩

@[simp] theorem Op.instr_fnOf (fc : FnCode) (op : Op) (f : Fields) :
    (op.instr f).fnOf fc = fc.codeOf op := by
  cases op <;> rfl

@[simp] theorem Op.instr_fields (op : Op) (f : Fields) : (op.instr f).fields = f := by
  cases op <;> rfl

@[simp] theorem Op.instr_wf (w : Nat) (fc : FnCode) (op : Op) (f : Fields) :
    (op.instr f).wf w fc = f.wf w := by
  cases op <;> rfl

theorem Op.instr_ne_unknown (op : Op) (f f' : Fields) (fn : FnField) : op.instr f ≠ .unknown fn f' := by
  cases op <;> nofun

theorem Instr.unknown_wf_iff {w : Nat} {fc : FnCode} {fn : FnField} {f : Fields} :
    (Instr.unknown fn f).wf w fc = true ↔ f.wf w = true ∧ fn ∉ fc.codes := by
  simp [Instr.wf]

/-! ### Decoding -/

section
variable {w : Nat} {fc : FnCode} {ir : Word w}

theorem decode_of_opOf_eq_some {op : Op} (h : fc.opOf (splitWord ir).fn = some op) :
    decode fc ir = op.instr (splitWord ir).fields := by
  simp only [decode, h]

theorem decode_of_opOf_eq_none (h : fc.opOf (splitWord ir).fn = none) :
    decode fc ir = .unknown (splitWord ir).fn (splitWord ir).fields := by
  simp only [decode, h]

/-- A word decodes to an unknown instruction exactly when FN_CODE does not give its code away. -/
theorem decode_eq_unknown_iff :
    (∃ fn f, decode fc ir = .unknown fn f) ↔ (splitWord ir).fn ∉ fc.codes := by
  rw [← FnCode.opOf_eq_none]
  cases hop : fc.opOf (splitWord ir).fn with
  | none => exact iff_of_true ⟨_, _, decode_of_opOf_eq_none hop⟩ rfl
  | some op =>
    refine iff_of_false ?_ nofun
    rintro ⟨fn, f, h⟩
    exact Op.instr_ne_unknown _ _ _ _ ((decode_of_opOf_eq_some hop).symm.trans h)

end

theorem splitWord_encode {w : Nat} (hw : 8 ≤ w) {fc : FnCode} {i : Instr} (hi : i.fields.wf w = true) :
    splitWord (encode w fc i) = ⟨i.fnOf fc, i.fields⟩ :=
  splitWord_packWord hw (t := ⟨i.fnOf fc, i.fields⟩) hi

/-- Settles O1: the codec gives back the code and the fields, and the dispatch the operation. -/
theorem decodeOfEncodeIsTheInstruction : Obligations.DecodeOfEncodeIsTheInstruction := by
  intro w fc i hw hfc hi
  obtain ⟨op, f, rfl⟩ | ⟨fn, f, rfl⟩ := i.eq_op_or_unknown
  · have hsplit := splitWord_encode hw (fc := fc) (i := op.instr f) (by simpa using hi)
    rw [Op.instr_fnOf, Op.instr_fields] at hsplit
    rw [decode_of_opOf_eq_some (op := op) (by rw [hsplit]; exact FnCode.opOf_codeOf hfc op), hsplit]
  · obtain ⟨hf, hfn⟩ := Instr.unknown_wf_iff.mp hi
    have hsplit := splitWord_encode hw (fc := fc) (i := .unknown fn f) hf
    rw [decode_of_opOf_eq_none (by rw [hsplit]; exact FnCode.opOf_eq_none.mpr hfn), hsplit]
    rfl

/-- Settles O3: the dispatch keeps the code and the fields of the split, which packs back to the word. -/
theorem everyWordDecodesAndEncodesBack : Obligations.EveryWordDecodesAndEncodesBack := by
  intro w fc ir hw
  have hfields := splitWord_fields_wf ir
  cases hop : fc.opOf (splitWord ir).fn with
  | some op =>
    have hcode := FnCode.codeOf_of_opOf_eq_some hop
    rw [decode_of_opOf_eq_some hop, Op.instr_wf, encode, Op.instr_fnOf, Op.instr_fields, hcode]
    exact ⟨hfields, packWord_splitWord hw ir⟩
  | none =>
    rw [decode_of_opOf_eq_none hop]
    exact ⟨Instr.unknown_wf_iff.mpr ⟨hfields, FnCode.opOf_eq_none.mp hop⟩, packWord_splitWord hw ir⟩

/-- Settles O4: the two branches of the dispatch. -/
theorem functionCodeSelectsTheOperation : Obligations.FunctionCodeSelectsTheOperation := by
  intro w fc ir hfc
  constructor
  · intro op hfn
    exact decode_of_opOf_eq_some (hfn ▸ FnCode.opOf_codeOf hfc op)
  · intro hnone
    refine decode_of_opOf_eq_none (FnCode.opOf_eq_none.mpr fun hmem => ?_)
    obtain ⟨op, hop⟩ := FnCode.mem_codes.mp hmem
    exact hnone op hop.symm

theorem FnCode.not_mem_standard_codes_iff (fn : FnField) :
    fn ∉ FnCode.standard.codes ↔ fn.getLsbD 3 = true := by
  revert fn
  decide

/-- Settles O5: the default FN_CODE gives away the codes without bit 3, which is the word's bit 3. -/
theorem unknownCodesAreThoseWithBitThreeSet : Obligations.UnknownCodesAreThoseWithBitThreeSet := by
  intro w ir _
  rw [decode_eq_unknown_iff, FnCode.not_mem_standard_codes_iff, getLsbD_splitWord_fn]
  simp

/-- Settles O6: the displacement is a sign extension, which keeps the signed value of its field. -/
theorem inlineDisplacementIsTwosComplement : Obligations.InlineDisplacementIsTwosComplement := by
  constructor
  · intro n
    have hempty : BitVec.ofNat (dispBits 8) n = 0#0 := BitVec.of_length_zero
    rw [Machine.sextDisp, hempty]
    rfl
  · intro w n hw hn
    have hwidth : dispBits w ≤ w := Nat.sub_le w 8
    have hhalf : 2 ^ (w - 8) = 2 * 2 ^ (w - 9) := by rw [← Nat.pow_succ']; congr 1; omega
    rw [Machine.sextDisp, BitVec.toInt_signExtend_of_le hwidth, BitVec.toInt_eq_toNat_cond,
      BitVec.toNat_ofNat, dispBits, Nat.mod_eq_of_lt hn, Nat.cast_pow, Nat.cast_ofNat]
    by_cases hsign : n < 2 ^ (w - 9)
    · rw [if_pos hsign, if_pos (by omega)]
    · rw [if_neg hsign, if_neg (by omega)]

/-- Settles O7: the six words, evaluated. -/
theorem sampleWordsDecode : Obligations.SampleWordsDecode := by
  unfold Obligations.SampleWordsDecode
  decide

end Sys2Proof
end

section
/-! The instructions' effects where the unit's operands are readable (R100-R128): one equation for the
attempt of any instruction, then each arm on the unit's registers. -/
namespace Sys2Proof.Machine

variable {w : Nat}

/-- The block its arm works on: the unit's result in pc and D (R90). -/
def Block.afterUnit (f : Fields) (b : Block w) : Block w := { b with regs := regsAfterUnit f b }

/-! ### The attempt of an instruction -/

theorem attemptWith_of_readable {hook : ExopHook} {i : Instr} {b : Block w} (h : readable i.fields b) :
    attemptWith hook i b = armWith hook b.regs.pc i (b.afterUnit i.fields) := by
  rw [attemptWith_eq, if_pos h.1, if_pos h.2]
  rfl

/-- Where the operands are not readable the unit raises, at an address outside core (R87, R89). -/
theorem attemptWith_of_not_readable {hook : ExopHook} {i : Instr} {b : Block w}
    (h : ¬ readable i.fields b) :
    ∃ k addr, attemptWith hook i b = .raised k addr ∧
      (i.fields.dBit = true ∧ k = .programCounterOutOfRange ∨
        i.fields.iBit = true ∧ k = .indirectAddressOutOfRange) ∧
      b.cfg.coreSize ≤ addr ∧ addr < 2 ^ w := by
  rw [attemptWith_eq]
  by_cases hword : operandWordInCore i.fields b
  · have hpointer : ¬ pointerInCore i.fields b := fun hp => h ⟨hword, hp⟩
    obtain ⟨hi, hout⟩ := Classical.not_imp.mp hpointer
    rw [if_pos hword, if_neg hpointer]
    exact ⟨_, _, rfl, .inr ⟨hi, rfl⟩, not_lt.mp hout, BitVec.isLt _⟩
  · obtain ⟨hd, hout⟩ := Classical.not_imp.mp hword
    rw [if_neg hword]
    exact ⟨_, _, rfl, .inl ⟨hd, rfl⟩, not_lt.mp hout, BitVec.isLt _⟩

/-- An attempt is done exactly when the unit raises nothing and the arm is done. -/
theorem attemptWith_eq_done {hook : ExopHook} {i : Instr} {b d : Block w} :
    attemptWith hook i b = .done d ↔
      readable i.fields b ∧ armWith hook b.regs.pc i (b.afterUnit i.fields) = .done d := by
  by_cases h : readable i.fields b
  · rw [attemptWith_of_readable h]
    exact (and_iff_right h).symm
  · obtain ⟨k, addr, hraised, -⟩ := attemptWith_of_not_readable (hook := hook) h
    rw [hraised]
    exact iff_of_false nofun fun hdone => h hdone.1

theorem exec_of_readable {i : Instr} {b : Block w} (h : readable i.fields b) :
    exec i ⟨w, b⟩ =
      .next ⟨w, b.commit (armWith exopHook b.regs.pc i (b.afterUnit i.fields))⟩ := by
  rw [exec_eq_commit, attemptWith_of_readable h]

theorem exec_of_arm {i : Instr} {b : Block w} {t : Attempt w} (h : readable i.fields b)
    (harm : armWith exopHook b.regs.pc i (b.afterUnit i.fields) = t) :
    exec i ⟨w, b⟩ = .next ⟨w, b.commit t⟩ := by
  rw [exec_of_readable h, harm]

/-- Settles O10: the unit comes before every arm, and its last stage is the indirection. -/
theorem indirectionFaultsForEveryInstruction : Obligations.IndirectionFaultsForEveryInstruction := by
  intro w b i hword hi hout
  have hpointer : ¬ pointerInCore i.fields b := fun hp => hout (hp hi)
  rw [exec_eq_commit, attemptWith_eq, if_pos hword, if_neg hpointer]
  rfl

/-! ### LOAD and ADD -/

/-- Settles O11: the unit, then LOAD's arm. -/
theorem loadPushesTheOperand : Obligations.LoadPushesTheOperand :=
  fun _ _ f h => exec_of_readable (i := .load f) h

/-- What ADD leaves (R100). -/
theorem exec_add {f : Fields} {b : Block w} (h : readable f b) :
    exec (.add f) ⟨w, b⟩ =
      .next ⟨w, { b with
        regs := { b.regs with
          pc := fallThroughOf f b, d := operandOf f b, a := b.regs.a + operandOf f b }
        stepsTaken := b.stepsTaken + 1 }⟩ :=
  exec_of_readable (i := .add f) h

/-- Settles O12: a Word's addition is the sum modulo 2^w. -/
theorem addAddsTheOperandModuloTheWord : Obligations.AddAddsTheOperandModuloTheWord :=
  fun _ _ _ h => ⟨_, BitVec.toNat_add _ _, exec_add h⟩

/-! ### The jumps -/

@[simp] theorem accTrue_iff (a : Word w) : accTrue a = true ↔ a ≠ 0 := bne_iff_ne

/-- Settles O13: the unit, then JMP's arm. -/
theorem jmpGoesToTheOperand : Obligations.JmpGoesToTheOperand :=
  fun _ _ f h => exec_of_readable (i := .jmp f) h

/-- Settles O14: JMPT's arm writes pc by the accumulator's test. -/
theorem jmptJumpsWhenTheAccumulatorIsNonzero : Obligations.JmptJumpsWhenTheAccumulatorIsNonzero := by
  intro w b f h
  rw [exec_of_readable (i := .jmpt f) h, armWith, jmptArm_eq]
  simp only [accTrue_iff, ite_not]
  rfl

/-- Settles O15: JMPF's arm writes pc by the same test, the other way round. -/
theorem jmpfJumpsWhenTheAccumulatorIsZero : Obligations.JmpfJumpsWhenTheAccumulatorIsZero := by
  intro w b f h
  rw [exec_of_readable (i := .jmpf f) h, armWith, jmpfArm_eq]
  simp only [accTrue_iff, ite_not]
  rfl

/-- Settles O16: the accumulator is zero or not, and each jump's equation says where it goes. -/
theorem jmptAndJmpfAreComplements : Obligations.JmptAndJmpfAreComplements := by
  intro w b f h
  refine ⟨_, _, jmptJumpsWhenTheAccumulatorIsNonzero w b f h,
    jmpfJumpsWhenTheAccumulatorIsZero w b f h, rfl, rfl, ?_⟩
  by_cases ha : b.regs.a = 0
  · exact .inr ⟨if_pos ha, if_pos ha, ha⟩
  · exact .inl ⟨if_neg ha, if_neg ha, ha⟩

/-- Settles O22: the operand word 1 indexed by P is the frame's second word, which JMP goes through. -/
theorem returnJumpGoesThroughTheFrame : Obligations.ReturnJumpGoesThroughTheFrame := by
  intro w b hword hone hframe
  have hindexed : indexedOf frameSlotForm b = b.regs.p + 1 := by
    have hbase : baseOf frameSlotForm b = 1 := hone
    calc indexedOf frameSlotForm b = baseOf frameSlotForm b + b.regs.p + 0 := rfl
      _ = b.regs.p + 1 := by rw [hbase, add_zero, add_comm]
  have hoperand : operandOf frameSlotForm b = b.core.read (b.regs.p + 1).toNat := by
    rw [operandOf, hindexed]
    rfl
  have hreadable : readable frameSlotForm b := ⟨fun _ => hword, fun _ => hindexed ▸ hframe⟩
  rw [jmpGoesToTheOperand w b _ hreadable, hoperand]

/-! ### STORE -/

/-- What STORE leaves where its address is in core (R120). -/
theorem exec_store {f : Fields} {b : Block w} (h : readable f b) (hin : b.inCore (operandOf f b)) :
    exec (.store f) ⟨w, b⟩ =
      .next ⟨w, { b with
        regs := regsAfterUnit f b
        stepsTaken := b.stepsTaken + 1
        core := b.core.write (operandOf f b).toNat b.regs.a }⟩ := by
  rcases storeArm_cases (b.afterUnit f) with ⟨-, harm⟩ | ⟨hout, -⟩
  · exact exec_of_arm (i := .store f) h harm
  · exact absurd hin hout

/-- Settles O17: STORE's one write, read back. -/
theorem storeWritesTheAccumulatorAtTheOperand : Obligations.StoreWritesTheAccumulatorAtTheOperand :=
  fun _ _ _ h hin => ⟨_, exec_store h hin, Memory.read_write_same .., fun _ hx =>
    Memory.read_write_other _ _ hx⟩

/-- Settles O18: STORE's arm raises at D. -/
theorem storeOutsideCoreRaises : Obligations.StoreOutsideCoreRaises := by
  intro w b f h hout
  rcases storeArm_cases (b.afterUnit f) with ⟨hin, -⟩ | ⟨-, harm⟩
  · exact absurd hin hout
  · exact exec_of_arm (i := .store f) h harm

/-- Settles O33: the word fetched next is the one STORE wrote. -/
theorem theNextFetchSeesAStore : Obligations.TheNextFetchSeesAStore := by
  intro w b f h hin hnext
  refine ⟨_, exec_store h hin, ?_, ?_⟩
  all_goals
    simp only [State.fetched, Block.opcodeWord, Block.readWord, regsAfterUnit, ← hnext,
      Memory.read_write_same]

/-! ### CALL -/

/-- What CALL leaves where both frame words are in core (R110). -/
theorem exec_call {f : Fields} {b : Block w} (h : readable f b) (hfirst : b.inCore (frameOf f b))
    (hsecond : b.inCore (frameOf f b + 1)) :
    exec (.call f) ⟨w, b⟩ =
      .next ⟨w, { b with
        regs := { b.regs with pc := b.regs.a, d := frameOf f b, p := frameOf f b }
        stepsTaken := b.stepsTaken + 1
        core := (b.core.write (frameOf f b).toNat b.regs.p).write (frameOf f b + 1).toNat
          (fallThroughOf f b) }⟩ := by
  rcases callArm_cases (b.afterUnit f) with ⟨-, -, harm⟩ | ⟨-, hout, -⟩ | ⟨hout, -⟩
  · exact exec_of_arm (i := .call f) h harm
  · exact absurd hsecond hout
  · exact absurd hfirst hout

/-- An address and the next one differ, the wrap included (D8). -/
theorem Word.toNat_ne_toNat_add_one (hw : 0 < w) (a : Word w) : a.toNat ≠ (a + 1).toNat := by
  intro h
  have hone : (1 : Word w) = 0 := left_eq_add.mp (BitVec.eq_of_toNat_eq h)
  exact absurd (BitVec.one_eq_zero_iff.mp hone) hw.ne'

/-- Settles O19: CALL's two writes, at different addresses, read back. -/
theorem callBuildsItsFrameAndGoesToTheAccumulator :
    Obligations.CallBuildsItsFrameAndGoesToTheAccumulator := by
  intro w b f hw h hfirst hsecond
  have hdistinct := Word.toNat_ne_toNat_add_one (by omega) (frameOf f b)
  refine ⟨_, exec_call h hfirst hsecond, ?_, Memory.read_write_same .., fun x hx hx' => ?_⟩
  · rw [Memory.read_write_other _ _ hdistinct, Memory.read_write_same]
  · rw [Memory.read_write_other _ _ hx', Memory.read_write_other _ _ hx]

/-- Settles O20: CALL's arm raises at the first frame word that is outside core. -/
theorem callFrameOutsideCoreRaises : Obligations.CallFrameOutsideCoreRaises := by
  intro w b f h
  rcases callArm_cases (b.afterUnit f) with ⟨hfirst, hsecond, -⟩ | ⟨hfirst, -, harm⟩ | ⟨hfirst, harm⟩
  · exact ⟨fun hout => absurd hfirst hout, fun _ hout => absurd hsecond hout⟩
  · exact ⟨fun hout => absurd hfirst hout, fun _ _ => exec_of_arm (i := .call f) h harm⟩
  · exact ⟨fun _ => exec_of_arm (i := .call f) h harm,
      fun hin => absurd hin hfirst⟩

/-- Settles O21: the frame that O19 builds, at the P that CALL leaves. -/
theorem callFrameHoldsTheCallersState : Obligations.CallFrameHoldsTheCallersState := by
  intro w b f hw h hfirst hsecond
  obtain ⟨m, hexec, hcaller, hreturn, -⟩ :=
    callBuildsItsFrameAndGoesToTheAccumulator w b f hw h hfirst hsecond
  refine ⟨_, hexec, hcaller, hreturn.trans ?_⟩
  unfold fallThroughOf
  cases f.dBit <;> simp

/-! ### EXOP and the unknown codes -/

/-- Settles O23: the unit, and the default hook changes nothing. -/
theorem exopIsANoOpUnderTheDefaultHook : Obligations.ExopIsANoOpUnderTheDefaultHook :=
  fun _ _ f h => exec_of_readable (i := .exop f) h

/-- The last write a list names for a core address is what it reads as. -/
theorem Memory.read_writeAll_last {n : Nat} (m : Memory w) {x : Nat} {v : Word w}
    {ws before after : List (Nat × Word w)} (hws : ws = before ++ (x, v) :: after)
    (hafter : ∀ u, (x, u) ∉ after) (hx : x < n) : (m.writeAll n ws).read x = v := by
  rw [hws, Memory.writeAll_append, Memory.writeAll, if_pos hx, Memory.read_writeAll_other _ (.inl hafter),
    Memory.read_write_same]

/-- Where no check stops it, a step of a block with any hook runs the fetched instruction (R80). -/
theorem stepWith_of_ready {hook : ExopHook} {s : State} (h : s.ready) :
    stepWith hook s = execWith hook s.fetched s := by
  obtain ⟨hfrozen, hbudget, hrunning, hpc⟩ := h
  exact (if_neg hfrozen).trans ((if_neg hbudget).trans
    ((if_neg (Bool.not_eq_true _ ▸ hrunning)).trans (if_pos hpc)))

/-- Settles O24: EXOP commits the hook's result, and core is its writes made in turn. -/
theorem exopCommitsWhatAnyHookReturns : Obligations.ExopCommitsWhatAnyHookReturns := by
  intro hook w b f h
  have hexec : execExopWith hook f ⟨w, b⟩ =
      .next ⟨w, b.commit (.done (applyHook hook f (b.afterUnit f)))⟩ := by
    rw [show execExopWith hook f ⟨w, b⟩ = execWith hook (.exop f) ⟨w, b⟩ from rfl, execWith_eq,
      attemptWith_of_readable (i := .exop f) h]
    rfl
  refine ⟨_, hexec, rfl, fun x hx => ?_, fun x v before after hws hafter hx => ?_, fun x hx => ?_,
    fun hready hfetched => ?_⟩
  · exact Memory.read_writeAll_other _ (.inl hx) b.core
  · exact Memory.read_writeAll_last b.core hws hafter hx
  · exact Memory.read_writeAll_other _ (.inr hx) b.core
  · rw [stepWith_of_ready hready, hfetched]
    rfl

/-- Settles O25: the unit, then the unknown arm. -/
theorem unknownCodeHaltsSoftly : Obligations.UnknownCodeHaltsSoftly :=
  fun _ _ fn f h => exec_of_readable (i := .unknown fn f) h

end Sys2Proof.Machine
end

section
/-! A run of immediate ADDs (R103). -/
namespace Sys2Proof.Machine

variable {w : Nat}

/-- The immediate form reads its operand word alone. -/
theorem operandOf_immediateForm (b : Block w) :
    operandOf immediateForm b = b.core.read (b.regs.pc + 1).toNat := by
  simp [operandOf, indexedOf, baseOf, immediateForm]

theorem readable_immediateForm {b : Block w} (h : b.inCore (b.regs.pc + 1)) :
    readable immediateForm b :=
  ⟨fun _ => h, nofun⟩

/-- The words `ds` stand in core as the operand words of consecutive two-word instructions from `pc`. -/
def Memory.HoldsOperands (coreSize : Nat) (m : Memory w) (pc : Word w) (ds : List (Word w)) : Prop :=
  ∀ k (h : k < ds.length),
    (pc + BitVec.ofNat w (2 * k) + 1).toNat < coreSize ∧
      m.read (pc + BitVec.ofNat w (2 * k) + 1).toNat = ds[k]

theorem Word.add_two_add (pc : Word w) (k : Nat) :
    pc + 1 + 1 + BitVec.ofNat w (2 * k) = pc + BitVec.ofNat w (2 * (k + 1)) := by
  simp only [← BitVec.natCast_eq_ofNat]
  push_cast
  ring

theorem Word.add_two (pc : Word w) : pc + BitVec.ofNat w (2 * 1) = pc + 1 + 1 := by
  rw [← Word.add_two_add, Nat.mul_zero, BitVec.ofNat_eq_ofNat, BitVec.add_zero]

section
variable {n : Nat} {m : Memory w} {pc d : Word w} {ds : List (Word w)}

theorem Memory.HoldsOperands.head (h : m.HoldsOperands n pc (d :: ds)) :
    (pc + 1).toNat < n ∧ m.read (pc + 1).toNat = d := by
  have hfirst := h 0 (Nat.succ_pos _)
  rwa [Nat.mul_zero, BitVec.ofNat_eq_ofNat, BitVec.add_zero] at hfirst

theorem Memory.HoldsOperands.tail (h : m.HoldsOperands n pc (d :: ds)) :
    m.HoldsOperands n (pc + 1 + 1) ds := by
  intro k hk
  rw [Word.add_two_add]
  exact h (k + 1) (Nat.succ_lt_succ hk)

end

/-- What a run of `count` immediate ADDs from `start` that adds `sum` leaves (R103). -/
structure Block.AddsTo (start c : Block w) (sum : Word w) (count : Nat) : Prop where
  a : c.regs.a = start.regs.a + sum
  pc : c.regs.pc = start.regs.pc + BitVec.ofNat w (2 * count)
  b : c.regs.b = start.regs.b
  p : c.regs.p = start.regs.p
  g : c.regs.g = start.regs.g
  core : c.core = start.core
  cfg : c.cfg = start.cfg
  stepsTaken : c.stepsTaken = start.stepsTaken + count

theorem Block.AddsTo.refl (b : Block w) : b.AddsTo b 0 0 := by
  constructor <;> simp

theorem Block.AddsTo.trans {b c d : Block w} {sum sum' : Word w} {count count' : Nat}
    (h : b.AddsTo c sum count) (h' : c.AddsTo d sum' count') :
    b.AddsTo d (sum + sum') (count + count') where
  a := by rw [h'.a, h.a, BitVec.add_assoc]
  pc := by rw [h'.pc, h.pc, BitVec.add_assoc, ← BitVec.ofNat_add, ← Nat.mul_add]
  b := h'.b.trans h.b
  p := h'.p.trans h.p
  g := h'.g.trans h.g
  core := h'.core.trans h.core
  cfg := h'.cfg.trans h.cfg
  stepsTaken := by rw [h'.stepsTaken, h.stepsTaken, Nat.add_assoc]

/-- One immediate ADD adds its operand word and goes past it. -/
theorem exec_add_immediate {b : Block w} (h : b.inCore (b.regs.pc + 1)) :
    ∃ c, exec (.add immediateForm) ⟨w, b⟩ = .next ⟨w, c⟩ ∧
      b.AddsTo c (b.core.read (b.regs.pc + 1).toNat) 1 := by
  refine ⟨_, exec_add (readable_immediateForm h), ?_⟩
  rw [operandOf_immediateForm]
  exact ⟨rfl, (Word.add_two _).symm, rfl, rfl, rfl, rfl, rfl, rfl⟩

/-- A run of immediate ADDs over operand words in core, by induction on them. -/
theorem execAll_add_immediate {ds : List (Word w)} {b : Block w}
    (h : b.core.HoldsOperands b.cfg.coreSize b.regs.pc ds) :
    ∃ c, execAll (ds.map fun _ => .add immediateForm) ⟨w, b⟩ = .next ⟨w, c⟩ ∧
      b.AddsTo c ds.sum ds.length := by
  induction ds generalizing b with
  | nil => exact ⟨b, rfl, .refl b⟩
  | cons d ds ih =>
    obtain ⟨hin, hd⟩ := h.head
    obtain ⟨c, hadd, hc⟩ := exec_add_immediate hin
    have htail : c.core.HoldsOperands c.cfg.coreSize c.regs.pc ds := by
      rw [hc.core, hc.cfg, hc.pc, Word.add_two]
      exact h.tail
    obtain ⟨e, hrun, he⟩ := ih htail
    refine ⟨e, ?_, ?_⟩
    · rw [List.map_cons, execAll, hadd]
      exact hrun
    · rw [List.sum_cons, List.length_cons, Nat.add_comm, ← hd]
      exact hc.trans he

/-- Settles O26: the run of the ADDs, its parts in the statement's order. -/
theorem immediateAddsAccumulateTheirSum : Obligations.ImmediateAddsAccumulateTheirSum := by
  intro w ds b h
  obtain ⟨c, hrun, hc⟩ := execAll_add_immediate h
  exact ⟨c, hrun, hc.a, hc.pc, hc.b, hc.p, hc.g, hc.core, hc.stepsTaken⟩

end Sys2Proof.Machine
end

section
/-! What an instruction changes and what it leaves alone (R22-R28, R44, R162): one lemma for each part of
the block, by the dispatch arms, and each lifted over the effective-address unit. -/
namespace Sys2Proof.Machine

variable {w : Nat} {hook : ExopHook} {pc0 : Word w} {i : Instr}

/-! ### What an arm can do -/

theorem storeArm_done {e d : Block w} (h : storeArm e = .done d) :
    e.inCore e.regs.d ∧ d = e.writeWord e.regs.d e.regs.a := by
  rcases storeArm_cases e with ⟨hin, harm⟩ | ⟨-, harm⟩ <;> cases harm.symm.trans h
  exact ⟨hin, rfl⟩

theorem callArm_done {e d : Block w} (h : callArm e = .done d) :
    e.inCore (e.regs.d + e.regs.p) ∧ e.inCore (e.regs.d + e.regs.p + 1) ∧
      d = callWrites (callFrame e) := by
  rcases callArm_cases e with ⟨hfirst, hsecond, harm⟩ | ⟨-, -, harm⟩ | ⟨-, harm⟩ <;>
    cases harm.symm.trans h
  exact ⟨hfirst, hsecond, rfl⟩

theorem jmptArm_done {e d : Block w} (h : jmptArm e = .done d) : ∃ pc, d = e.setPc pc :=
  ⟨_, (Attempt.done.inj ((jmptArm_eq e).symm.trans h)).symm⟩

theorem jmpfArm_done {e d : Block w} (h : jmpfArm e = .done d) : ∃ pc, d = e.setPc pc :=
  ⟨_, (Attempt.done.inj ((jmpfArm_eq e).symm.trans h)).symm⟩

/-- An arm leaves `halted` and the record alone, or is the unknown arm's soft halt (R128), under any hook. -/
theorem armWith_status {e d : Block w} (h : armWith hook pc0 i e = .done d) :
    ((∀ fn f, i ≠ .unknown fn f) ∧ d.halted = e.halted ∧ d.fault = e.fault) ∨
      (∃ fn f, i = .unknown fn f) ∧ d.halted = true ∧
        d.fault = ⟨.unknownFunction, pc0.toNat, pc0⟩ := by
  cases i with
  | store f =>
    obtain ⟨-, rfl⟩ := storeArm_done h
    exact .inl ⟨nofun, rfl, rfl⟩
  | call f =>
    obtain ⟨-, -, rfl⟩ := callArm_done h
    exact .inl ⟨nofun, rfl, rfl⟩
  | jmpt f => obtain ⟨_, rfl⟩ := jmptArm_done h; exact .inl ⟨nofun, rfl, rfl⟩
  | jmpf f => obtain ⟨_, rfl⟩ := jmpfArm_done h; exact .inl ⟨nofun, rfl, rfl⟩
  | load f | add f | jmp f | exop f => cases h; exact .inl ⟨nofun, rfl, rfl⟩
  | unknown fn f => cases h; exact .inr ⟨⟨fn, f, rfl⟩, rfl, rfl⟩

/-- A fault that an arm raises is its own, at a word address outside core (R110, R120). -/
theorem armWith_raised_armFault {e : Block w} {k : FaultKind} {addr : Nat}
    (h : armWith hook pc0 i e = .raised k addr) :
    armFault i k = true ∧ e.cfg.coreSize ≤ addr ∧ addr < 2 ^ w := by
  cases i with
  | store f =>
    rcases storeArm_cases e with ⟨-, harm⟩ | ⟨hout, harm⟩ <;> cases harm.symm.trans h
    exact ⟨rfl, not_lt.mp hout, BitVec.isLt _⟩
  | call f =>
    rcases callArm_cases e with ⟨-, -, harm⟩ | ⟨-, hout, harm⟩ | ⟨hout, harm⟩ <;>
      cases harm.symm.trans h
    · exact ⟨rfl, not_lt.mp hout, BitVec.isLt _⟩
    · exact ⟨rfl, not_lt.mp hout, BitVec.isLt _⟩
  | jmpt f => cases (jmptArm_eq e).symm.trans h
  | jmpf f => cases (jmpfArm_eq e).symm.trans h
  | load f | add f | jmp f | exop f | unknown fn f => cases h

/-- Every arm keeps core's canonical form, under any hook (R34). -/
theorem armWith_core_wf {e d : Block w} (h : armWith hook pc0 i e = .done d)
    (hwf : e.core.wf e.cfg.coreSize = true) : d.core.wf e.cfg.coreSize = true := by
  cases i with
  | store f =>
    obtain ⟨hin, rfl⟩ := storeArm_done h
    exact Memory.wf_write _ hwf hin
  | call f =>
    obtain ⟨hfirst, hsecond, rfl⟩ := callArm_done h
    exact Memory.wf_write _ (Memory.wf_write _ hwf hfirst) hsecond
  | jmpt f => obtain ⟨_, rfl⟩ := jmptArm_done h; exact hwf
  | jmpf f => obtain ⟨_, rfl⟩ := jmpfArm_done h; exact hwf
  | exop f => cases h; exact Memory.wf_writeAll _ hwf
  | load f | add f | jmp f | unknown fn f => cases h; exact hwf

/-- The registers an instruction's arm may write besides pc and D, under the default hook (R22-R26). -/
structure Block.WritesRegsOf (i : Instr) (e d : Block w) : Prop where
  g : d.regs.g = e.regs.g
  a : d.regs.a ≠ e.regs.a → ∃ f, i = .load f ∨ i = .add f
  b : d.regs.b ≠ e.regs.b → ∃ f, i = .load f
  p : d.regs.p ≠ e.regs.p → ∃ f, i = .call f

theorem armWith_writesRegsOf {e d : Block w} (h : armWith exopHook pc0 i e = .done d) :
    e.WritesRegsOf i d := by
  cases i with
  | load f => cases h; exact ⟨rfl, fun _ => ⟨f, .inl rfl⟩, fun _ => ⟨f, rfl⟩, absurd rfl⟩
  | add f => cases h; exact ⟨rfl, fun _ => ⟨f, .inr rfl⟩, absurd rfl, absurd rfl⟩
  | store f =>
    obtain ⟨-, rfl⟩ := storeArm_done h
    exact ⟨rfl, absurd rfl, absurd rfl, absurd rfl⟩
  | call f =>
    obtain ⟨-, -, rfl⟩ := callArm_done h
    exact ⟨rfl, absurd rfl, absurd rfl, fun _ => ⟨f, rfl⟩⟩
  | jmpt f => obtain ⟨_, rfl⟩ := jmptArm_done h; exact ⟨rfl, absurd rfl, absurd rfl, absurd rfl⟩
  | jmpf f => obtain ⟨_, rfl⟩ := jmpfArm_done h; exact ⟨rfl, absurd rfl, absurd rfl, absurd rfl⟩
  | jmp f | exop f | unknown fn f => cases h; exact ⟨rfl, absurd rfl, absurd rfl, absurd rfl⟩

/-- Past the unit, an arm changes core only where its instruction stores (R44). -/
theorem armWith_read_of_not_storedAt {b d : Block w} {x : Nat}
    (h : armWith exopHook pc0 i (b.afterUnit i.fields) = .done d) (hx : x ∉ storedAt b i) :
    d.core.read x = b.core.read x := by
  cases i with
  | store f =>
    obtain ⟨-, rfl⟩ := storeArm_done h
    exact Memory.read_write_other _ _ (List.ne_of_not_mem_cons hx)
  | call f =>
    obtain ⟨-, -, rfl⟩ := callArm_done h
    obtain ⟨hfirst, hrest⟩ := List.ne_and_not_mem_of_not_mem_cons hx
    exact (Memory.read_write_other _ _ (List.ne_of_not_mem_cons hrest)).trans
      (Memory.read_write_other _ _ hfirst)
  | jmpt f => obtain ⟨_, rfl⟩ := jmptArm_done h; rfl
  | jmpf f => obtain ⟨_, rfl⟩ := jmpfArm_done h; rfl
  | load f | add f | jmp f | exop f | unknown fn f => cases h; rfl

/-! ### What an executed instruction can do -/

/-- An instruction's next state is what its attempt computed, with the step counted, or the block with
the record of the fault raised (R93). -/
theorem exec_cases {b c : Block w} (h : exec i ⟨w, b⟩ = .next ⟨w, c⟩) :
    (∃ d, attemptWith exopHook i b = .done d ∧ c = d.countStep) ∨
      ∃ k addr, attemptWith exopHook i b = .raised k addr ∧ c = b.raise k addr := by
  rw [exec_eq_commit] at h
  cases h
  cases attemptWith exopHook i b with
  | done d => exact .inl ⟨d, rfl, rfl⟩
  | raised k addr => exact .inr ⟨k, addr, rfl, rfl⟩

/-- A fault that an instruction raises is one it may record, at a word address outside core (R162). -/
theorem attemptWith_raised_mayRecord {b : Block w} {k : FaultKind} {addr : Nat}
    (h : attemptWith hook i b = .raised k addr) :
    mayRecord i k = true ∧ b.cfg.coreSize ≤ addr ∧ addr < 2 ^ w := by
  by_cases hread : readable i.fields b
  · rw [attemptWith_of_readable hread] at h
    obtain ⟨hfault, hrange⟩ := armWith_raised_armFault h
    exact ⟨by simp [mayRecord, hfault], hrange⟩
  · obtain ⟨k', addr', hraised, hkind, hrange⟩ := attemptWith_of_not_readable (hook := hook) hread
    cases hraised.symm.trans h
    refine ⟨?_, hrange⟩
    rcases hkind with ⟨hbit, rfl⟩ | ⟨hbit, rfl⟩ <;> simp [mayRecord, hbit]

/-- Settles O27: the unit writes no core, and an arm only where its instruction stores. -/
theorem onlyStoredWordsOfCoreChange : Obligations.OnlyStoredWordsOfCoreChange := by
  intro w b c i h x hx
  rcases exec_cases h with ⟨d, hdone, rfl⟩ | ⟨k, addr, -, rfl⟩
  · rw [Block.countStep_core]
    exact armWith_read_of_not_storedAt (attemptWith_eq_done.mp hdone).2 hx
  · rfl

/-- Settles O28: the writers of each register and of `halted`, by the arms. -/
theorem eachRegisterHasOnlyItsWriters : Obligations.EachRegisterHasOnlyItsWriters := by
  intro w b c i h
  rcases exec_cases h with ⟨d, hdone, rfl⟩ | ⟨k, addr, -, rfl⟩
  · obtain ⟨-, harm⟩ := attemptWith_eq_done.mp hdone
    have hregs := armWith_writesRegsOf harm
    refine ⟨hregs.g, (attemptWith_computes hdone).cfg, hregs.a, hregs.b, hregs.p, fun hhalted => ?_⟩
    rcases armWith_status harm with ⟨-, hsame, -⟩ | ⟨hunknown, -⟩
    · exact absurd hsame hhalted
    · exact hunknown
  · exact ⟨rfl, rfl, absurd rfl, absurd rfl, absurd rfl, absurd rfl⟩

/-- Settles O29: an attempt that is done leaves the record alone or makes the soft one, and one that
raises records what the instruction may. -/
theorem instructionsRaiseOnlyTheirFaults : Obligations.InstructionsRaiseOnlyTheirFaults := by
  intro w b i
  refine ⟨_, exec_eq_commit i b, ?_⟩
  cases hattempt : attemptWith exopHook i b with
  | done d =>
    rcases armWith_status (attemptWith_eq_done.mp hattempt).2 with ⟨-, -, hsame⟩ | ⟨⟨fn, f, rfl⟩, -, hsoft⟩
    · exact .inl hsame
    · rw [Block.commit_done, Block.countStep_fault, hsoft]
      exact .inr ⟨by simp [mayRecord, armFault], rfl⟩
  | raised k addr => exact .inr ⟨(attemptWith_raised_mayRecord hattempt).1, rfl⟩

/-- Where core covers every word address no instruction raises (R41). -/
theorem attemptWith_done_of_core_covers {b : Block w} (hcover : 2 ^ w ≤ b.cfg.coreSize) :
    ∃ d, attemptWith hook i b = .done d := by
  cases hattempt : attemptWith hook i b with
  | done d => exact ⟨d, rfl⟩
  | raised k addr =>
    obtain ⟨-, hout, hword⟩ := attemptWith_raised_mayRecord hattempt
    omega

/-- Settles O30: no instruction raises, and pc is in core, so only the budget's check is left. -/
theorem noAddressFaultsWhereCoreCoversTheWords : Obligations.NoAddressFaultsWhereCoreCoversTheWords := by
  intro w b hcover
  have hexec : ∀ i : Instr, ∃ d, b.Computes d ∧ exec i ⟨w, b⟩ = .next ⟨w, d.countStep⟩ := fun i => by
    obtain ⟨d, hdone⟩ := attemptWith_done_of_core_covers (hook := exopHook) (i := i) hcover
    exact ⟨d, attemptWith_computes hdone, by rw [exec_eq_commit, hdone]; rfl⟩
  constructor
  · intro i
    obtain ⟨d, hd, hnext⟩ := hexec i
    exact ⟨_, hnext, congrArg (· + 1) hd.stepsTaken⟩
  · intro c hstep hfrozen
    rcases engineStep_cases exec ⟨w, b⟩ with ⟨-, hfault⟩ | ⟨-, -, hspent⟩ | ⟨hb, -, -, hnoop⟩ |
      ⟨hb, -, -, -, hrun⟩ | ⟨-, -, -, hout, -⟩
    · cases hfault.symm.trans hstep
    · cases hspent.symm.trans hstep
      rfl
    · cases hnoop.symm.trans hstep
      exact absurd hfrozen hb
    · obtain ⟨d, hd, hnext⟩ := hexec (State.fetched ⟨w, b⟩)
      cases (hrun.trans hnext).symm.trans hstep
      exact absurd hfrozen (hd.not_frozen hb)
    · exact absurd ((BitVec.isLt _).trans_le hcover) hout

/-- Settles O31: the unit overwrites D, and reads every other register alone. -/
theorem instructionsIgnoreTheOldD : Obligations.InstructionsIgnoreTheOldD := by
  intro w b c i v h hcounted
  rcases exec_cases h with ⟨d, hdone, rfl⟩ | ⟨k, addr, -, rfl⟩
  · have hd : attemptWith exopHook i (b.setD v) = .done d :=
      attemptWith_eq_done.mpr (attemptWith_eq_done.mp hdone)
    rw [exec_eq_commit, hd]
    rfl
  · exact absurd hcounted (Nat.ne_of_lt (Nat.lt_succ_self _))

/-! ### B is read by no instruction (R23) -/

/-- What an attempt comes to when its block has another B. -/
def Attempt.setB (v : Word w) (t : Attempt w) : Attempt w := t.andThen fun d => .done (d.setB v)

theorem Block.commit_setB (b : Block w) (v : Word w) (t : Attempt w) :
    (b.setB v).commit (t.setB v) = (b.commit t).setB v := by
  cases t <;> rfl

/-- The unit does the same on another B. -/
theorem effectiveAddress_setB (f : Fields) (b : Block w) (v : Word w) :
    effectiveAddress f (b.setB v).advancePc = (effectiveAddress f b.advancePc).setB v := by
  rw [effectiveAddressUnitResult, effectiveAddressUnitResult, apply_ite (Attempt.setB v),
    apply_ite (Attempt.setB v)]
  rfl

/-- On another B an arm does the same and carries B along, or is LOAD's, which overwrites it. -/
theorem armWith_setB (pc0 : Word w) (i : Instr) (e : Block w) (v : Word w) :
    armWith exopHook pc0 i (e.setB v) = (armWith exopHook pc0 i e).setB v ∨
      ∃ d, (∃ f, i = .load f) ∧ armWith exopHook pc0 i (e.setB v) = .done d ∧
        armWith exopHook pc0 i e = .done d := by
  cases i with
  | load f => exact .inr ⟨_, ⟨f, rfl⟩, rfl, rfl⟩
  | store f =>
    left
    rw [armWith, storeArm, storeArm, apply_ite (Attempt.setB v)]
    rfl
  | call f =>
    left
    rw [armWith, callArm, callArm, apply_ite (Attempt.setB v), apply_ite (Attempt.setB v)]
    rfl
  | jmpt f => left; rw [armWith, jmptArm_eq, jmptArm_eq]; rfl
  | jmpf f => left; rw [armWith, jmpfArm_eq, jmpfArm_eq]; rfl
  | add f | jmp f | exop f | unknown fn f => exact .inl rfl

theorem attemptWith_setB (i : Instr) (b : Block w) (v : Word w) :
    attemptWith exopHook i (b.setB v) = (attemptWith exopHook i b).setB v ∨
      ∃ d, (∃ f, i = .load f) ∧ attemptWith exopHook i (b.setB v) = .done d ∧
        attemptWith exopHook i b = .done d := by
  rw [attemptWith, attemptWith, effectiveAddress_setB, Block.setB_regs_pc]
  cases effectiveAddress i.fields b.advancePc with
  | done e => exact armWith_setB b.regs.pc i e v
  | raised k addr => exact .inl rfl

/-- Settles O32: LOAD overwrites B, and every other instruction carries it along. -/
theorem noInstructionReadsB : Obligations.NoInstructionReadsB := by
  intro w b c i v h
  rw [exec_eq_commit] at h
  cases h
  rw [exec_eq_commit]
  rcases attemptWith_setB i b v with hsame | ⟨d, ⟨f, rfl⟩, hother, hdone⟩
  · left
    rw [hsame, Block.commit_setB]
  · right
    rw [hother, hdone]
    exact ⟨f, rfl, rfl⟩

end Sys2Proof.Machine
end

section
/-! The invariant (R19, R28, R30, R34, R81, R93): one lemma for each way a step or a host transaction
changes the block, then the step's branches by name. -/
namespace Sys2Proof.Machine

variable {w : Nat} {b d : Block w}

/-! ### Core's canonical form (R34) -/

/-- In a core whose addresses rise, the listed entries are what the addresses read as, but for the
unlisted value. -/
theorem Memory.mem_iff_read {n : Nat} {m : Memory w} (h : m.wf n = true) (x : Nat) (v : Word w) :
    (x, v) ∈ m ↔ m.read x = v ∧ v ≠ Memory.unlisted := by
  obtain ⟨hrising, hlisted⟩ := (Memory.wf_iff n m).mp h
  clear h
  induction m with
  | nil => exact iff_of_false List.not_mem_nil fun ⟨hread, hv⟩ => hv hread.symm
  | cons c rest ih =>
    obtain ⟨k, u⟩ := c
    obtain ⟨hhead, htail⟩ := List.pairwise_cons.mp hrising
    have hu : u ≠ Memory.unlisted := (hlisted _ List.mem_cons_self).2
    have ih := ih htail fun c hc => hlisted c (List.mem_cons_of_mem _ hc)
    rw [Memory.read_cons, List.mem_cons, Prod.mk.injEq]
    by_cases hx : x = k
    · subst hx
      have hnot : (x, v) ∉ rest := fun hmem => lt_irrefl x (hhead (x, v) hmem)
      simp only [hnot, if_pos, true_and, or_false]
      exact ⟨fun hv => ⟨hv.symm, hv ▸ hu⟩, fun hv => hv.1.symm⟩
    · simp only [hx, if_false, false_and, false_or, ih]

/-- Settles O49: two canonical cores that read alike list the same entries, in the same order. -/
theorem canonicalCoresThatReadAlikeAreEqual : Obligations.CanonicalCoresThatReadAlikeAreEqual := by
  intro w n m m' h h' hread
  have hmem : ∀ c, c ∈ m ↔ c ∈ m' := fun ⟨x, v⟩ => by
    rw [Memory.mem_iff_read h, Memory.mem_iff_read h', hread x]
  exact List.Pairwise.eq_of_mem_iff ((Memory.wf_iff n m).mp h).1 ((Memory.wf_iff n m').mp h').1 hmem

/-! ### The record a change leaves -/

/-- An unfrozen block's record stays lawful whatever becomes of the registers. -/
theorem Block.recordOk_of_fault_eq (h : b.recordOk) (hcfg : d.cfg = b.cfg) (hfault : d.fault = b.fault)
    (hfrozen : ¬ b.frozen) : d.recordOk := by
  obtain ⟨hnone, hunknown, hlimit, haddress, hloader, halloc, -⟩ := h
  rw [Block.recordOk, Block.frozen, hcfg, hfault]
  exact ⟨hnone, hunknown, hlimit, haddress, hloader, halloc, fun hf => absurd hf hfrozen⟩

/-- The soft record of R128 is lawful on any block. -/
theorem Block.recordOk_of_unknownFunction {pc0 : Word w}
    (hfault : d.fault = ⟨.unknownFunction, pc0.toNat, pc0⟩) : d.recordOk := by
  rw [Block.recordOk, Block.frozen, hfault]
  exact ⟨nofun, fun _ => rfl, nofun, nofun, nofun, nofun, nofun⟩

theorem Block.recordOk_raise_stepLimitExceeded (b : Block w) :
    (b.raise .stepLimitExceeded b.regs.pc.toNat).recordOk :=
  ⟨nofun, nofun, fun _ => rfl, nofun, nofun, nofun, fun _ => rfl⟩

theorem Block.recordOk_raise_addressFault {k : FaultKind} {addr : Nat} (hk : k.isAddressFault = true)
    (hout : b.cfg.coreSize ≤ addr) (hword : addr < 2 ^ w) : (b.raise k addr).recordOk := by
  refine ⟨?_, ?_, ?_, fun _ => ⟨hout, hword⟩, ?_, ?_, fun _ => rfl⟩
  all_goals
    rw [Block.raise_fault]
    rintro rfl
    cases hk

/-- A running, unfrozen block with the invariant has no fault on record (R30). -/
theorem Block.Inv.fault_kind_eq_none (h : b.Inv) (hfrozen : ¬ b.frozen) (hrunning : b.halted = false) :
    b.fault.kind = .none := by
  obtain ⟨-, -, ⟨-, -, -, -, -, halloc, -⟩, ⟨hunknown, -⟩, -⟩ := h
  rw [Block.frozen] at hfrozen
  cases hkind : b.fault.kind with
  | none => rfl
  | unknownFunction => exact absurd (hunknown hkind) (by simp [hrunning])
  | allocationFailure => exact absurd hkind halloc
  | stepLimitExceeded | programCounterOutOfRange | indirectAddressOutOfRange
  | storeAddressOutOfRange | callFrameOutOfRange | loaderOverflow =>
    exact absurd (congrArg FaultKind.isFatal hkind) hfrozen

/-! ### What a step does to the block -/

/-- A step that counts itself: the budget was not spent, and what it computed is unfrozen with a lawful
core, record and `halted`. -/
theorem Block.Inv.counted (h : b.Inv) (hbudget : ¬ b.budgetSpent) (hd : b.Computes d)
    (hcore : d.core.wf b.cfg.coreSize = true) (hfrozen : ¬ d.frozen) (hrecord : d.recordOk)
    (hhalted : d.haltedOk) : d.countStep.Inv := by
  obtain ⟨hlegal, -, -, -, -⟩ := h
  have hleft : b.cfg.stepBudget ≠ -1 → (b.stepsTaken : Int) < b.cfg.stepBudget := fun hfinite =>
    not_le.mp fun hle => hbudget ⟨hfinite, hle⟩
  refine ⟨hd.cfg ▸ hlegal, hd.cfg ▸ hcore, hrecord, hhalted, ?_,
    fun hkind => absurd (congrArg FaultKind.isFatal hkind) hfrozen⟩
  rw [Block.countStep_cfg, Block.countStep_stepsTaken, hd.cfg, hd.stepsTaken]
  exact fun hfinite => by have := hleft hfinite; omega

theorem Block.Inv.haltedNoop (h : b.Inv) (hfrozen : ¬ b.frozen) (hbudget : ¬ b.budgetSpent) :
    b.countStep.Inv :=
  have ⟨_, hcore, hrecord, hhalted, _⟩ := h
  h.counted hbudget ⟨rfl, rfl, .inl rfl⟩ hcore hfrozen hrecord hhalted

theorem Block.Inv.raise_stepLimitExceeded (h : b.Inv) (hspent : b.budgetSpent) :
    (b.raise .stepLimitExceeded b.regs.pc.toNat).Inv :=
  have ⟨hlegal, hcore, _, _, hcount, _⟩ := h
  ⟨hlegal, hcore, b.recordOk_raise_stepLimitExceeded, ⟨nofun, fun _ => .inr rfl⟩, hcount, fun _ => hspent⟩

theorem Block.Inv.raise_addressFault (h : b.Inv) (hrunning : b.halted = false) {k : FaultKind}
    {addr : Nat} (hk : k.isAddressFault = true) (hout : b.cfg.coreSize ≤ addr) (hword : addr < 2 ^ w) :
    (b.raise k addr).Inv := by
  obtain ⟨hlegal, hcore, -, -, hcount, -⟩ := h
  refine ⟨hlegal, hcore, Block.recordOk_raise_addressFault hk hout hword, ⟨?_, ?_⟩, hcount, ?_⟩
  · rintro rfl
    cases hk
  · exact fun hhalted => absurd (hrunning.symm.trans hhalted) nofun
  · exact fun hkind => absurd hkind (FaultKind.ne_stepLimitExceeded_of_isAddressFault hk)

/-- An executed instruction keeps the invariant, under any hook: its attempt computes a lawful block or
raises an address fault. -/
theorem Block.Inv.commit_attemptWith (h : b.Inv) (hook : ExopHook) (i : Instr) (hfrozen : ¬ b.frozen)
    (hbudget : ¬ b.budgetSpent) (hrunning : b.halted = false) :
    (b.commit (attemptWith hook i b)).Inv := by
  cases hattempt : attemptWith hook i b with
  | raised k addr =>
    obtain ⟨-, hout, hword⟩ := attemptWith_raised_mayRecord hattempt
    exact h.raise_addressFault hrunning (attemptWith_raised hattempt) hout hword
  | done d =>
    have ⟨_, hcore, hrecord, _, _⟩ := h
    have hd := attemptWith_computes hattempt
    obtain ⟨-, harm⟩ := attemptWith_eq_done.mp hattempt
    have hnone := h.fault_kind_eq_none hfrozen hrunning
    obtain ⟨hrecord', hhalted'⟩ : d.recordOk ∧ d.haltedOk := by
      rcases armWith_status harm with ⟨-, hhalted, hfault⟩ | ⟨-, hhalted, hfault⟩
      · have hkind : d.fault.kind = .none := (congrArg FaultRecord.kind hfault).trans hnone
        have hoff : d.halted = false := hhalted.trans hrunning
        refine ⟨Block.recordOk_of_fault_eq hrecord hd.cfg hfault hfrozen, ?_, ?_⟩
        · exact fun hunknown => absurd (hkind.symm.trans hunknown) nofun
        · exact fun hon => absurd (hoff.symm.trans hon) nofun
      · exact ⟨Block.recordOk_of_unknownFunction hfault, fun _ => hhalted,
          fun _ => .inl (congrArg FaultRecord.kind hfault)⟩
    exact h.counted hbudget hd (armWith_core_wf (e := b.afterUnit i.fields) harm hcore)
      (hd.not_frozen hfrozen) hrecord' hhalted'

/-- The step lemma: every branch of a step keeps the invariant, under any hook. -/
theorem State.Inv.stepWith (hook : ExopHook) {s t : State} (h : s.Inv)
    (hstep : stepWith hook s = .next t) : t.Inv := by
  rcases engineStep_cases (execWith hook) s with ⟨-, heq⟩ | ⟨-, hspent, heq⟩ |
    ⟨hfrozen, hbudget, -, heq⟩ | ⟨hfrozen, hbudget, hrunning, -, heq⟩ | ⟨-, -, hrunning, hout, heq⟩
  · cases heq.symm.trans hstep
  · cases heq.symm.trans hstep
    exact Block.Inv.raise_stepLimitExceeded h hspent
  · cases heq.symm.trans hstep
    exact Block.Inv.haltedNoop h hfrozen hbudget
  · rw [execWith_eq] at heq
    cases heq.symm.trans hstep
    exact Block.Inv.commit_attemptWith h hook _ hfrozen hbudget hrunning
  · cases heq.symm.trans hstep
    exact Block.Inv.raise_addressFault h hrunning rfl (not_lt.mp hout) (BitVec.isLt _)

/-- Settles O45: `step` is the step under the default hook. -/
theorem stepKeepsTheInvariant : Obligations.StepKeepsTheInvariant :=
  ⟨fun _ _ h hstep => h.stepWith exopHook (stepWith_exopHook ▸ hstep),
    fun hook _ _ h hstep => h.stepWith hook hstep⟩

/-! ### What the host does to the block -/

/-- A reset block of a legal build has the invariant (R19, R35). -/
theorem Block.Inv.resetOf {cfg : Config} (h : cfg.legal w) : (Block.resetOf w cfg).Inv := by
  have ⟨_, _, hbudget, _⟩ := h
  refine ⟨h, rfl, ⟨fun _ => rfl, nofun, nofun, nofun, nofun, nofun, nofun⟩, ⟨nofun, nofun⟩, ?_, nofun⟩
  intro hfinite
  rw [Block.resetOf_cfg] at hfinite ⊢
  rw [Block.resetOf_stepsTaken]
  omega

/-- Settles O46: the reference build is legal. -/
theorem resetMeetsTheInvariant : Obligations.ResetMeetsTheInvariant :=
  Block.Inv.resetOf (by decide)

/-- Only the canonical form depends on core. -/
theorem Block.Inv.withCore (h : b.Inv) {m : Memory w} (hm : m.wf b.cfg.coreSize = true) :
    Block.Inv { b with core := m } :=
  have ⟨hlegal, _, hrest⟩ := h
  ⟨hlegal, hm, hrest⟩

/-- A host register write sets the registers alone. -/
theorem Block.writeReg_eq (b : Block w) (r : RegName) (v : Word w) :
    b.writeReg r v = { b with regs := (b.writeReg r v).regs } := by
  cases r <;> rfl

/-- Of an unfrozen block, no part of the invariant depends on the registers. -/
theorem Block.Inv.withRegs (h : b.Inv) (hfrozen : ¬ b.frozen) (regs : Regs w) :
    Block.Inv { b with regs := regs } :=
  have ⟨hlegal, hcore, hrecord, hhalted, hbudget⟩ := h
  ⟨hlegal, hcore, Block.recordOk_of_fault_eq hrecord rfl rfl hfrozen, hhalted, hbudget⟩

theorem Block.not_frozen_of_beforeFirstStep (h : b.beforeFirstStep) : ¬ b.frozen := by
  rw [Block.frozen, h.2]
  decide

/-- Settles O48: each transaction by the part of the block it replaces. -/
theorem hostTransactionsKeepTheInvariant : Obligations.HostTransactionsKeepTheInvariant := by
  refine ⟨fun w cfg t hbuild => ?_, fun s h => ?_⟩
  · by_cases hlegal : cfg.legal w
    · cases (build_of_legal hlegal).symm.trans hbuild
      exact Block.Inv.resetOf hlegal
    · cases (build_of_not_legal hlegal).symm.trans hbuild
  · have ⟨hlegal, hcore, _⟩ := h
    refine ⟨Block.Inv.resetOf hlegal, fun addr v t hwrite => ?_, fun r v t hwrite => ?_,
      fun text start => ?_⟩
    · unfold hostWriteCore at hwrite
      split at hwrite
      · next hin =>
        cases hwrite
        exact Block.Inv.withCore h (Memory.wf_write v hcore hin)
      · cases hwrite
    · unfold hostWriteReg at hwrite
      split at hwrite
      · next hbefore =>
        rw [Block.writeReg_eq] at hwrite
        cases hwrite
        exact Block.Inv.withRegs h (Block.not_frozen_of_beforeFirstStep hbefore) _
      · cases hwrite
    · have hloaded := loaderRun_core s.block text start
      exact Block.Inv.withCore h (hloaded ▸ Memory.wf_writeAll _ hcore)

end Sys2Proof.Machine
end

section
/-! The step as the host sees it (R28, R80, R95, R165): which steps have a next state, what the outcome
says of it, the frozen block, and the budget that ends every run. -/
namespace Sys2Proof.Machine

variable {w : Nat} {hook : ExopHook} {b c : Block w}

/-- Settles O34: `step` is the step under the default hook, and dispatches what it fetched. -/
theorem stepRunsTheDecodedInstruction : Obligations.StepRunsTheDecodedInstruction := by
  rintro s i hready rfl
  rw [← stepWith_exopHook, stepWith_of_ready hready, execWith_exopHook]
  rfl

/-! ### Which steps have a next state -/

/-- A frozen block returns its fault (R165). -/
theorem stepWith_of_frozen (hfrozen : b.frozen) :
    stepWith hook ⟨w, b⟩ = .fault (.frozen b.fault.kind b.fault.addr b.fault.pc.toNat) :=
  if_pos hfrozen

/-- A step of an unfrozen block has a next state, a raising one too (log 4). -/
theorem stepWith_of_not_frozen (hfrozen : ¬ b.frozen) : ∃ c, stepWith hook ⟨w, b⟩ = .next ⟨w, c⟩ := by
  rcases engineStep_cases (execWith hook) ⟨w, b⟩ with ⟨hf, -⟩ | ⟨-, -, heq⟩ | ⟨-, -, -, heq⟩ |
    ⟨-, -, -, -, heq⟩ | ⟨-, -, -, -, heq⟩
  · exact absurd hf hfrozen
  · exact ⟨_, heq⟩
  · exact ⟨_, heq⟩
  · exact ⟨_, heq.trans (execWith_eq ..)⟩
  · exact ⟨_, heq⟩

/-- Settles O40: the frozen block's fault, and every other block's next state. -/
theorem onlyAFrozenBlockStops : Obligations.OnlyAFrozenBlockStops := by
  rintro hook ⟨w, b⟩
  by_cases hfrozen : b.frozen
  · rw [stepWith_of_frozen hfrozen]
    exact ⟨iff_of_false (fun ⟨_, h⟩ => nomatch h) (not_not.mpr hfrozen), nofun⟩
  · obtain ⟨c, hnext⟩ := stepWith_of_not_frozen (hook := hook) hfrozen
    rw [hnext]
    exact ⟨iff_of_true ⟨_, rfl⟩ hfrozen, nofun⟩

/-! ### What a step leaves, from R93's two cases -/

/-- A step that leaves the block frozen set the record alone (R93). -/
theorem stepWith_frozen_eq (h : stepWith hook ⟨w, b⟩ = .next ⟨w, c⟩) (hfrozen : c.frozen) :
    c.fault.pc = b.regs.pc ∧ c = { b with fault := c.fault } := by
  obtain ⟨c', heq, ⟨-, hclear, -⟩ | ⟨kind, addr, -, hraise, -⟩⟩ := stepCommitsAllOrNothing hook w b _ h
  · cases heq
    exact absurd hfrozen hclear
  · cases heq
    subst hraise
    exact ⟨rfl, rfl⟩

/-- A step that does not leave the block frozen counts itself under the same construction values, and
keeps `halted`, or executed an unknown code on a ready block, which sets it (R28, R128). -/
theorem stepWith_unfrozen (h : stepWith hook ⟨w, b⟩ = .next ⟨w, c⟩) (hfrozen : ¬ c.frozen) :
    c.stepsTaken = b.stepsTaken + 1 ∧ c.cfg = b.cfg ∧
      ((b.halted = true ∨ ∀ fn f, State.fetched ⟨w, b⟩ ≠ .unknown fn f) ∧ c.halted = b.halted ∨
        State.ready ⟨w, b⟩ ∧ (∃ fn f, State.fetched ⟨w, b⟩ = .unknown fn f) ∧ c.halted = true) := by
  obtain ⟨c', heq, ⟨hcount, -, hcfg, hcommit⟩ | ⟨kind, addr, hfatal, hraise, -⟩⟩ :=
    stepCommitsAllOrNothing hook w b _ h
  · cases heq
    refine ⟨hcount, hcfg, ?_⟩
    rcases hcommit with ⟨hhalted, rfl⟩ | ⟨hready, d, hdone, rfl⟩
    · exact .inl ⟨.inl hhalted, rfl⟩
    · rcases armWith_status (attemptWith_eq_done.mp hdone).2 with ⟨hknown, hsame, -⟩ | ⟨hunknown, hon, -⟩
      · exact .inl ⟨.inr hknown, hsame⟩
      · exact .inr ⟨hready, hunknown, hon⟩
  · cases heq
    subst hraise
    exact absurd hfatal hfrozen

/-- Settles O42: a raising step keeps `halted`, and a counted one sets it by an unknown code alone. -/
theorem haltedIsSetByUnknownAndClearedByReset : Obligations.HaltedIsSetByUnknownAndClearedByReset := by
  rintro hook ⟨w, b⟩ t h
  obtain ⟨c, rfl, -⟩ := stepCommitsAllOrNothing hook w b t h
  by_cases hfrozen : c.frozen
  · obtain ⟨-, hsame⟩ := stepWith_frozen_eq h hfrozen
    have hhalted : c.halted = b.halted := by rw [hsame]
    exact ⟨fun hon => hhalted.trans hon, fun hoff hon => absurd ((hhalted.trans hoff).symm.trans hon) nofun,
      rfl⟩
  · obtain ⟨-, -, ⟨-, hhalted⟩ | ⟨hready, hunknown, hon⟩⟩ := stepWith_unfrozen h hfrozen
    · exact ⟨fun hon => hhalted.trans hon,
        fun hoff hon => absurd ((hhalted.trans hoff).symm.trans hon) nofun, rfl⟩
    · exact ⟨fun _ => hon, fun _ _ => ⟨hready, hunknown⟩, rfl⟩

/-! ### The outcome (R95) -/

theorem outcomeOf_frozen {wasHalted : Bool} {t : State} (h : t.block.frozen) :
    outcomeOf wasHalted t = .fault t.block.fault.kind t.block.fault.addr t.block.fault.pc.toNat :=
  if_pos h

theorem outcomeOf_running {t : State} (h : ¬ t.block.frozen) :
    outcomeOf false t = if t.block.halted then .softUnknownFunction else .ok :=
  if_neg h

theorem stepOutcome_of_next {s t : State} (h : step s = .next t) :
    stepOutcome s = some (outcomeOf s.block.halted t) := by
  rw [stepOutcome, h, outcomeFor]

theorem step_of_frozen (hfrozen : b.frozen) :
    step ⟨w, b⟩ = .fault (.frozen b.fault.kind b.fault.addr b.fault.pc.toNat) :=
  stepWith_exopHook ▸ stepWith_of_frozen hfrozen

theorem stepOutcome_of_frozen (hfrozen : b.frozen) :
    stepOutcome ⟨w, b⟩ = some (.fault b.fault.kind b.fault.addr b.fault.pc.toNat) := by
  rw [stepOutcome, step_of_frozen hfrozen, outcomeFor]

/-- Settles O41: the outcome is read off the next state, and an unfrozen one is halted by an unknown
code alone. -/
theorem stepOutcomeSaysWhatTheStepDid : Obligations.StepOutcomeSaysWhatTheStepDid := by
  intro w b
  refine ⟨stepOutcome_of_frozen, fun hfrozen => ?_⟩
  obtain ⟨c, hnext⟩ := stepWith_of_not_frozen (hook := exopHook) hfrozen
  have hstep : step ⟨w, b⟩ = .next ⟨w, c⟩ := stepWith_exopHook ▸ hnext
  rw [stepOutcome_of_next hstep]
  refine ⟨c, hstep, fun hc => congrArg some (outcomeOf_frozen hc), fun hc hon => ?_,
    fun hc hoff hunknown => ?_, fun hc hoff hknown => ?_⟩
  · exact congrArg some (hon ▸ outcomeOf_halted hc)
  · obtain ⟨-, -, ⟨hon | hknown, -⟩ | ⟨-, -, hset⟩⟩ := stepWith_unfrozen hnext hc
    · exact absurd (hoff.symm.trans hon) nofun
    · obtain ⟨fn, f, hfetched⟩ := hunknown
      exact absurd hfetched (hknown fn f)
    · exact congrArg some ((hoff ▸ outcomeOf_running hc).trans (if_pos hset))
  · obtain ⟨-, -, ⟨-, hsame⟩ | ⟨-, ⟨fn, f, hfetched⟩, -⟩⟩ := stepWith_unfrozen hnext hc
    · exact congrArg some ((hoff ▸ outcomeOf_running hc).trans (if_neg (by simp [hsame.trans hoff])))
    · exact absurd hfetched (hknown fn f)

/-! ### The frozen block (R165) -/

theorem hostWriteReg_of_not_beforeFirstStep {s : State} (h : ¬ s.block.beforeFirstStep) (r : RegName)
    (v : Word s.wordBits) : hostWriteReg s r v = .refused .outsideInterface :=
  if_neg h

theorem hostWriteCore_eq_next {s t : State} {addr : Nat} {v : Word s.wordBits}
    (h : hostWriteCore s addr v = .next t) :
    addr < s.block.cfg.coreSize ∧
      t = ⟨s.wordBits, { s.block with core := s.block.core.write addr v }⟩ := by
  unfold hostWriteCore at h
  split at h
  · next hin => cases h; exact ⟨hin, rfl⟩
  · cases h

/-- Settles O39: the freeze is the first check of a step, and no host transaction but reset writes the
record it reads. -/
theorem fatalFaultFreezesUntilReset : Obligations.FatalFaultFreezesUntilReset := by
  intro w b c
  refine ⟨fun hc => ⟨step_of_frozen hc, stepOutcome_of_frozen hc, fun addr v t hwrite => ?_,
    fun r v => ?_, fun text start => ⟨_, rfl⟩⟩, fun hstep hc => ?_, nofun⟩
  · obtain ⟨-, rfl⟩ := hostWriteCore_eq_next hwrite
    exact ⟨_, rfl⟩
  · exact hostWriteReg_of_not_beforeFirstStep
      (fun hbefore => Block.not_frozen_of_beforeFirstStep hbefore hc) r v
  · have houtcome : stepOutcome ⟨w, b⟩ = some _ :=
      (stepOutcome_of_next hstep).trans (congrArg some (outcomeOf_frozen hc))
    obtain ⟨hpc, hsame⟩ := stepWith_frozen_eq (stepWith_exopHook ▸ hstep) hc
    exact ⟨houtcome, (stepOutcome_of_frozen hc).trans houtcome.symm, hpc, hsame⟩

/-- Settles O43: JMP completes at its target, and the pc-range check raises there. -/
theorem jumpOutsideCoreFaultsAtTheNextFetch : Obligations.JumpOutsideCoreFaultsAtTheNextFetch := by
  intro w b f h hout hfrozen hrunning hleft
  refine ⟨_, jmpGoesToTheOperand w b f h, pcOutsideCoreRaises w _ hfrozen ?_ hrunning hout⟩
  rintro ⟨hfinite, hreached⟩
  rcases hleft with hinfinite | hbelow
  · exact hfinite hinfinite
  · exact absurd hreached (not_le.mpr (by exact_mod_cast hbelow))

/-! ### The budget ends every run (R81, R165) -/

theorem run_of_fault {M : Host.Core} {s : M.State} {r : M.Fault} (h : M.step s = .fault r) (k : Nat) :
    M.run (k + 1) s = .fault r := by
  rw [Host.Core.run, h]

theorem run_of_next {M : Host.Core} {s t : M.State} (h : M.step s = .next t) (k : Nat) :
    M.run (k + 1) s = M.run k t := by
  rw [Host.Core.run, h]

theorem run_of_frozen (hfrozen : b.frozen) (k : Nat) :
    ∃ r, Sys2Proof.core.run (k + 1) ⟨w, b⟩ = .fault r :=
  ⟨_, run_of_fault (M := Sys2Proof.core) (step_of_frozen hfrozen) k⟩

/-- By induction on the steps the budget still allows: a step counts itself, or leaves the block frozen. -/
theorem run_faults_of_budget {n : Nat} (k : Nat) (b : Block w) (hbudget : b.cfg.stepBudget = n)
    (hk : n ≤ b.stepsTaken + k) : ∃ r, Sys2Proof.core.run (k + 2) ⟨w, b⟩ = .fault r := by
  by_cases hfrozen : b.frozen
  · exact run_of_frozen hfrozen _
  induction k generalizing b with
  | zero =>
    have hspent : b.budgetSpent := ⟨by omega, by omega⟩
    rw [run_of_next (M := Sys2Proof.core) (engineStep_of_budgetSpent hfrozen hspent)]
    exact run_of_frozen rfl _
  | succ k ih =>
    obtain ⟨c, hnext⟩ := stepWith_of_not_frozen (hook := exopHook) hfrozen
    have hstep : step ⟨w, b⟩ = .next ⟨w, c⟩ := stepWith_exopHook ▸ hnext
    rw [run_of_next (M := Sys2Proof.core) hstep]
    by_cases hc : c.frozen
    · exact run_of_frozen hc _
    · obtain ⟨hcount, hcfg, -⟩ := stepWith_unfrozen hnext hc
      exact ih c (hcfg ▸ hbudget) (by omega) hc

/-- Settles O44: at most the budget's remaining steps count themselves. -/
theorem finiteBudgetEndsEveryRun : Obligations.FiniteBudgetEndsEveryRun := by
  rintro ⟨w, b⟩ n hbudget
  exact run_faults_of_budget _ b hbudget (by show n ≤ b.stepsTaken + (n - b.stepsTaken); omega)

end Sys2Proof.Machine
end

section
/-! The host's accesses between steps (R13, R36, R185). -/
namespace Sys2Proof.Machine

variable {w : Nat}

@[simp] theorem Block.readReg_writeReg_same (b : Block w) (r : RegName) (v : Word w) :
    (b.writeReg r v).readReg r = v := by
  cases r <;> rfl

theorem Block.readReg_writeReg_other (b : Block w) {q r : RegName} (v : Word w) (h : q ≠ r) :
    (b.writeReg r v).readReg q = b.readReg q := by
  cases r <;> cases q <;> trivial

/-- After a step with a next state the block is past its first step: the step counted itself or
recorded a fault (log 13). -/
theorem not_beforeFirstStep_of_step {s t : State} (h : step s = .next t) :
    ¬ t.block.beforeFirstStep := by
  obtain ⟨c, rfl, ⟨hcount, -⟩ | ⟨kind, addr, hfatal, rfl, -⟩⟩ :=
    stepCommitsAllOrNothing exopHook s.wordBits s.block t (stepWith_exopHook ▸ h)
  · exact fun ⟨hzero, _⟩ => absurd (hcount.symm.trans hzero) (Nat.succ_ne_zero _)
  · rintro ⟨-, rfl⟩
    cases hfatal

/-- Settles O51: a register write by its reads, and every step ends the time for it. -/
theorem hostWritesRegistersOnlyBeforeTheFirstStep :
    Obligations.HostWritesRegistersOnlyBeforeTheFirstStep :=
  ⟨fun _ b r v hsteps hkind => ⟨b.writeReg r v, if_pos ⟨hsteps, hkind⟩, b.readReg_writeReg_same r v,
      fun _ hq => b.readReg_writeReg_other v hq, b.writeReg_eq r v⟩,
    fun _ _ hstep => hostWriteReg_of_not_beforeFirstStep (not_beforeFirstStep_of_step hstep)⟩

/-- Settles O52: core's read-after-write, through the host's bounds checks. -/
theorem hostCoreWriteIsReadBack : Obligations.HostCoreWriteIsReadBack := by
  intro w b addr v hin
  refine ⟨{ b with core := b.core.write addr v }, if_pos hin, ?_, fun x hx => ?_, rfl⟩
  · exact (if_pos hin).trans (congrArg some (Memory.read_write_same ..))
  · unfold hostReadCore
    rw [Memory.read_write_other _ _ hx]

end Sys2Proof.Machine
end

section
/-! The trace port of a step (R14, R125): the checks of a step decide whether there is an event, and the
effective-address unit whether EXOP's warning follows. -/
namespace Sys2Proof.Machine

variable {w : Nat} {b : Block w}

theorem stepEventsWith_of_ready {s : State} (h : s.ready) (warns : Bool) :
    stepEventsWith warns s.block =
      executeEvent s.block :: if warns then exopWarnings s.block else [] := by
  obtain ⟨hfrozen, hbudget, hrunning, hpc⟩ := h
  exact (if_neg hfrozen).trans ((if_neg hbudget).trans
    ((if_neg (Bool.not_eq_true _ ▸ hrunning)).trans (if_pos hpc)))

theorem stepEventsWith_of_not_ready {s : State} (h : ¬ s.ready) (warns : Bool) :
    stepEventsWith warns s.block = [] := by
  unfold stepEventsWith
  split_ifs with hfrozen hbudget hhalted hpc
  · rfl
  · rfl
  · rfl
  · exact absurd ⟨hfrozen, hbudget, by simpa using hhalted, hpc⟩ h
  · rfl

theorem exopWarnings_of_readable {f : Fields} (hf : State.fetched ⟨w, b⟩ = .exop f)
    (h : readable f b) : exopWarnings b = [{ executeEvent b with kind := .exopWarning }] := by
  have hunit := effectiveAddressUnitResult w b f
  rw [if_pos h.1, if_pos h.2] at hunit
  unfold exopWarnings
  rw [show decode b.cfg.fnCode b.opcodeWord = _ from hf]
  dsimp only
  rw [hunit]

theorem exopWarnings_of_not_readable {f : Fields} (hf : State.fetched ⟨w, b⟩ = .exop f)
    (h : ¬ readable f b) : exopWarnings b = [] := by
  have hunit : ∃ k addr, effectiveAddress f b.advancePc = .raised k addr := by
    rw [effectiveAddressUnitResult]
    split_ifs with hword hpointer
    · exact absurd ⟨hword, hpointer⟩ h
    · exact ⟨_, _, rfl⟩
    · exact ⟨_, _, rfl⟩
  obtain ⟨k, addr, hraised⟩ := hunit
  unfold exopWarnings
  rw [show decode b.cfg.fnCode b.opcodeWord = _ from hf]
  dsimp only
  rw [hraised]

theorem exopWarnings_of_not_exop (h : ∀ f, State.fetched ⟨w, b⟩ ≠ .exop f) : exopWarnings b = [] := by
  unfold exopWarnings
  split
  · next f hf => exact absurd hf (h f)
  all_goals rfl

/-- Settles O56: the event of the executed word, and the warning list by its cases. -/
theorem executedWordHasItsTraceEvent : Obligations.ExecutedWordHasItsTraceEvent := by
  rintro ⟨w, b⟩
  refine ⟨executeEvent b, rfl, fun hready f hf hread => ?_, fun hready f hf hread => ?_,
    fun hready hother => ?_, fun hready => stepEventsWith_of_ready hready false,
    stepEventsWith_of_not_ready⟩
  all_goals refine (stepEventsWith_of_ready hready true).trans (congrArg (executeEvent b :: ·) ?_)
  · exact exopWarnings_of_readable hf hread
  · exact exopWarnings_of_not_readable hf hread
  · exact exopWarnings_of_not_exop hother

end Sys2Proof.Machine
end

section
/-! The words a load emits (R144, R145): they stand in core where they were emitted, and a smaller core
cuts the load at the first word outside it. -/
namespace Sys2Proof.Machine

variable {w : Nat}

/-! ### The emitted words stand in core -/

/-- Every emitted word reads back at its address. -/
structure LoaderState.EmittedStands (start : Nat) (l : LoaderState w) : Prop
    extends LoaderState.EmitsFrom start l where
  stands : ∀ e ∈ l.emitted, l.core.read e.1 = e.2

/-- The next word goes to the cursor, past every word emitted before. -/
theorem emittedStands_loaderInvariant (coreSize start : Nat) :
    LoaderInvariant coreSize (LoaderState.EmittedStands (w := w) start) where
  scan l mods run inComment hl :=
    ⟨(emitsFrom_loaderInvariant coreSize start).scan l mods run inComment hl.toEmitsFrom, hl.stands⟩
  emit l v hl hcore := by
    refine ⟨(emitsFrom_loaderInvariant coreSize start).emit l v hl.toEmitsFrom hcore, fun e he => ?_⟩
    rcases List.mem_append.mp he with hold | hnew
    · have hother : e.1 ≠ l.cursor := fun heq =>
        hl.toEmitsFrom.not_mem_emitted (.inr le_rfl) e.2 (heq ▸ hold)
      exact (Memory.read_write_other _ _ hother).trans (hl.stands e hold)
    · rw [List.mem_singleton.mp hnew]
      exact Memory.read_write_same ..

theorem LoaderState.EmitsFrom.getElem_fst {start k : Nat} {l : LoaderState w} (h : l.EmitsFrom start)
    (hk : k < l.emitted.length) : (l.emitted[k]).1 = start + k := by
  have haddr : (l.emitted.map Prod.fst)[k]'(by simpa using hk) =
      (List.range' start l.emitted.length)[k]'(by simpa using hk) := by
    simp only [h.addresses]
  simpa using haddr

/-- Settles O55: the invariant of the emitted words, at the end of the load. -/
theorem emittedWordsStandInCore : Obligations.EmittedWordsStandInCore := by
  rintro ⟨w, b⟩ text start k hk
  have hstart : (loaderStart start b.core).EmittedStands start := ⟨⟨rfl, rfl⟩, nofun⟩
  have hrun : (loaderRun text start ⟨w, b⟩).1.EmittedStands start := by
    rw [loaderRun, LoaderRun.finish_fst]
    exact (emittedStands_loaderInvariant b.cfg.coreSize start).loadChars text hstart
  have haddr := hrun.toEmitsFrom.getElem_fst hk
  exact ⟨haddr, haddr ▸ hrun.stands _ (List.getElem_mem hk)⟩

/-! ### The load at another size of core -/

/-- Every word emitted so far lands in a core of `size` words. -/
structure LoaderState.Fits (size start : Nat) (l : LoaderState w) : Prop
    extends LoaderState.EmitsFrom start l where
  fits : l.emitted = [] ∨ l.cursor ≤ size

/-- A load that stands at `full` in a core large enough has emitted a word that a core of `size` words
does not hold, where it ended in `cut` with an overflow at `addr`. -/
structure LoaderState.CutAt (size start : Nat) (cut : LoaderState w) (addr : Nat)
    (full : LoaderState w) : Prop extends LoaderState.EmitsFrom start full where
  nonempty : full.emitted ≠ []
  past : size < full.cursor
  addr : addr = max start size
  emitted : cut.emitted = full.emitted.take (size - start)

/-- Once cut, a load stays cut at the same word, whatever the larger core emits after it. -/
theorem cutAt_loaderInvariant (size start coreSize : Nat) (cut : LoaderState w) (addr : Nat) :
    LoaderInvariant coreSize (LoaderState.CutAt size start cut addr) where
  scan l mods run inComment hl :=
    ⟨(emitsFrom_loaderInvariant coreSize start).scan l mods run inComment hl.toEmitsFrom, hl.nonempty,
      hl.past, hl.addr, hl.emitted⟩
  emit l v hl hcore := by
    refine ⟨(emitsFrom_loaderInvariant coreSize start).emit l v hl.toEmitsFrom hcore, by simp,
      hl.past.trans (Nat.lt_succ_self _), hl.addr, ?_⟩
    have hlength : size - start ≤ l.emitted.length := by
      have := hl.past
      have := hl.cursor
      omega
    rw [List.take_append_of_le_length hlength]
    exact hl.emitted

/-- How a load at `size`, on the right, goes with the same load at a larger size: both go on alike as
long as the words fit, and then the one at `size` is cut. -/
def LoaderRun.Agrees (size start : Nat) : LoaderRun w → LoaderRun w → Prop
  | .running full, .running l => l = full ∧ full.Fits size start
  | .running full, .overflow cut addr => LoaderState.CutAt size start cut addr full
  | .overflow _ _, _ => True

section
variable {size start : Nat}

theorem LoaderRun.Agrees.andThen {coreSize : Nat} {r r' : LoaderRun w}
    {k k' : LoaderState w → LoaderRun w} (h : r.Agrees size start r')
    (hk : ∀ l, l.Fits size start → (k l).Agrees size start (k' l))
    (hcut : ∀ P, LoaderInvariant coreSize P → ∀ l, P l → P (k l).state) :
    (r.andThen k).Agrees size start (r'.andThen k') := by
  match r, r', h with
  | .running full, .running l, ⟨heq, hfits⟩ => exact heq ▸ hk full hfits
  | .running full, .overflow cut addr, hfull =>
    have hstate := hcut _ (cutAt_loaderInvariant size start coreSize cut addr) full hfull
    show (k full).Agrees size start (.overflow cut addr)
    cases hgo : k full with
    | running l => rw [hgo] at hstate; exact hstate
    | overflow l a => trivial
  | .overflow full a, _, _ => trivial

theorem agrees_emitWord {l : LoaderState w} (hl : l.Fits size start) (coreSize : Nat) (v : Word w) :
    (emitWord coreSize l v).Agrees size start (emitWord size l v) := by
  have hcursor := hl.cursor
  have hemits := fun hcore => (emitsFrom_loaderInvariant coreSize start).emit l v hl.toEmitsFrom hcore
  unfold emitWord
  split
  · next hcore =>
    split
    · next hsize => exact ⟨rfl, hemits hcore, .inr hsize⟩
    · next hsize =>
      have hend : l.emitted.length = size - start ∧ l.cursor = max start size := by
        rcases hl.fits with hnil | hle
        · rw [hnil, List.length_nil] at hcursor ⊢
          omega
        · omega
      obtain ⟨hlength, haddr⟩ := hend
      exact ⟨hemits hcore, by simp, Nat.lt_succ_of_le (not_lt.mp hsize), haddr,
        (List.take_left' hlength).symm⟩
  · trivial

theorem LoaderState.Fits.scan {l : LoaderState w} (hl : l.Fits size start) (mods : Fields)
    (run : List Nat) (inComment : Bool) :
    LoaderState.Fits size start { l with mods := mods, run := run, inComment := inComment } :=
  ⟨⟨hl.cursor, hl.addresses⟩, hl.fits⟩

theorem agrees_flushRun {l : LoaderState w} (hl : l.Fits size start) (coreSize : Nat) :
    (flushRun coreSize l).Agrees size start (flushRun size l) := by
  unfold flushRun
  split
  · exact ⟨rfl, hl⟩
  · exact agrees_emitWord (hl.scan l.mods [] l.inComment) coreSize _

end

section
variable {cfg cfg' : Config} {start : Nat} (hcode : cfg.fnCode = cfg'.fnCode)
include hcode

theorem agrees_tokenChar {l : LoaderState w} (hl : l.Fits cfg'.coreSize start) (c : Char) :
    (tokenChar cfg l c).Agrees cfg'.coreSize start (tokenChar cfg' l c) := by
  unfold tokenChar
  rw [hcode]
  split
  · exact ⟨rfl, hl.scan l.mods l.run true⟩
  · cases modsAfter l.mods c with
    | some m => exact ⟨rfl, hl.scan m l.run l.inComment⟩
    | none =>
      cases opOfLetter c with
      | some op =>
        exact (agrees_emitWord hl cfg.coreSize _).andThen (coreSize := cfg.coreSize)
          (fun l hl => ⟨rfl, hl.scan noMods l.run l.inComment⟩) fun P hP l hl => hP.scan l _ _ _ hl
      | none => exact ⟨rfl, hl⟩

theorem agrees_loadChar {l : LoaderState w} (hl : l.Fits cfg'.coreSize start) (c : Char) :
    (loadChar cfg l c).Agrees cfg'.coreSize start (loadChar cfg' l c) := by
  unfold loadChar
  split
  · split
    · exact ⟨rfl, hl.scan l.mods l.run false⟩
    · exact ⟨rfl, hl⟩
  · cases hexDigit c with
    | some n =>
      dsimp only
      split
      · exact agrees_flushRun (hl.scan l.mods (l.run ++ [n]) l.inComment) cfg.coreSize
      · exact ⟨rfl, hl.scan l.mods (l.run ++ [n]) l.inComment⟩
    | none =>
      exact (agrees_flushRun hl cfg.coreSize).andThen (fun l hl => agrees_tokenChar hcode hl c)
        fun P hP l hl => hP.tokenChar hl c

theorem agrees_loadChars (text : List Char) {l : LoaderState w} (hl : l.Fits cfg'.coreSize start) :
    (loadChars cfg text l).Agrees cfg'.coreSize start (loadChars cfg' text l) := by
  induction text generalizing l with
  | nil => exact agrees_flushRun hl cfg.coreSize
  | cons c rest ih =>
    exact (agrees_loadChar hcode hl c).andThen (fun l hl => ih hl) fun P hP l hl => hP.loadChars rest hl

end

theorem LoaderRun.finish_eq_ok {start n : Nat} {r : LoaderRun w} (h : (r.finish start).2 = .ok n) :
    ∃ l, r = .running l ∧ l.cursor - start = n := by
  cases r with
  | running l => exact ⟨l, rfl, LoadResult.ok.inj h⟩
  | overflow l addr => cases h

/-- How a load at `size` ends where the same load with a larger core ends with `n` words (R145). -/
theorem LoaderRun.Agrees.finish {size start n : Nat} {full : LoaderState w} {r : LoaderRun w}
    (h : (LoaderRun.running full).Agrees size start r) (hn : full.cursor - start = n) :
    ((n = 0 ∨ start + n ≤ size) → (r.finish start).2 = .ok n) ∧
      (n ≠ 0 → size < start + n → (r.finish start).2 = .loaderOverflow (max start size) ∧
        (r.finish start).1.emitted = full.emitted.take (size - start)) := by
  match r, h with
  | .running l, ⟨heq, hfull⟩ =>
    subst heq
    refine ⟨fun _ => congrArg LoadResult.ok hn, fun hwords hpast => ?_⟩
    have hcursor := hfull.cursor
    rcases hfull.fits with hnil | hle
    · rw [hnil, List.length_nil] at hcursor
      omega
    · omega
  | .overflow cut addr, hcut =>
    have hcursor := hcut.cursor
    have hlength := List.length_pos_iff.mpr hcut.nonempty
    have hpast := hcut.past
    exact ⟨fun hfits => by omega, fun _ _ =>
      ⟨congrArg LoadResult.loaderOverflow hcut.addr, hcut.emitted⟩⟩

/-- Settles O54: the load at the block's CORE_SIZE agrees with the one that ends, from the start on. -/
theorem loaderOverflowsAtTheFirstWordOutsideCore :
    Obligations.LoaderOverflowsAtTheFirstWordOutsideCore := by
  intro w b text start bigger n hload
  have hstart : (loaderStart start b.core).Fits b.cfg.coreSize start := ⟨⟨rfl, rfl⟩, .inl rfl⟩
  have hagrees := agrees_loadChars (cfg := { b.cfg with coreSize := bigger }) (cfg' := b.cfg) rfl text
    hstart
  obtain ⟨full, hfull, hn⟩ := LoaderRun.finish_eq_ok hload
  obtain ⟨hok, hcut⟩ := LoaderRun.Agrees.finish (hfull ▸ hagrees) hn
  refine ⟨hok, fun hwords hpast => ?_⟩
  rw [show loaderRun text start ⟨w, { b with cfg := { b.cfg with coreSize := bigger } }⟩ = _ from
    congrArg (LoaderRun.finish start) hfull]
  exact hcut hwords hpast

end Sys2Proof.Machine
end

section
/-! The loader's tokens (R137-R143): what each class of characters is to the scanner, and then each token
from a state between tokens. -/
namespace Sys2Proof.Machine

variable {w : Nat} {cfg : Config} {l : LoaderState w}

/-! ### The classes of characters -/

theorem mem_hexDigits {c : Char}
    (h : 48 ≤ c.toNat ∧ c.toNat ≤ 57 ∨ 65 ≤ c.toNat ∧ c.toNat ≤ 70) : c ∈ hexDigits := by
  have hcodes : ∀ n < 71, (48 ≤ n ∧ n ≤ 57 ∨ 65 ≤ n ∧ n ≤ 70) → Char.ofNat n ∈ hexDigits := by decide
  have hc := hcodes c.toNat (by omega) h
  rwa [Char.ofNat_toNat] at hc

theorem hexDigit_eq_none {c : Char} (h : c ∉ hexDigits) : hexDigit c = none := by
  unfold hexDigit
  split_ifs with hdecimal hletter
  · exact absurd (mem_hexDigits (.inl hdecimal)) h
  · exact absurd (mem_hexDigits (.inr hletter)) h
  · rfl

theorem hexDigit_spelled (d : Fin 16) : hexDigit (hexDigits.getD d.val '0') = some d.val := by
  revert d
  decide

theorem modsAfter_eq_none {c : Char} (h : c ∉ ['g', 'd', 'i', 'p']) (m : Fields) :
    modsAfter m c = none := by
  simp only [List.mem_cons, List.not_mem_nil, or_false, not_or] at h
  obtain ⟨hg, hd, hi, hp⟩ := h
  rw [modsAfter, if_neg hd, if_neg hp, if_neg hg, if_neg hi]

theorem mem_mnemonicLetters_of_opOfLetter {c : Char} {op : Op} (h : opOfLetter c = some op) :
    (c, op) ∈ mnemonicLetters := by
  unfold opOfLetter at h
  split_ifs at h
  all_goals
    subst_vars
    cases h
    decide

/-- A mnemonic letter is no character of another class. -/
theorem mnemonicLetters_spec : ∀ e ∈ mnemonicLetters,
    hexDigit e.1 = none ∧ e.1 ≠ ';' ∧ e.1 ∉ ['g', 'd', 'i', 'p'] ∧ opOfLetter e.1 = some e.2 := by
  decide

/-! ### A character between tokens -/

theorem flushRun_of_run_eq_nil (coreSize : Nat) (h : l.run = []) :
    flushRun coreSize l = .running l :=
  if_pos h

/-- A character that is no hex digit, with no run pending, is a token's character at once. -/
theorem loadChar_of_not_hex (hrun : l.run = []) (hcomment : l.inComment = false) {c : Char}
    (hc : hexDigit c = none) : loadChar cfg l c = tokenChar cfg l c := by
  simp only [loadChar, hcomment, hc, flushRun_of_run_eq_nil _ hrun, LoaderRun.andThen,
    Bool.false_eq_true, if_false]

theorem loadChars_of_not_hex (h : l.betweenTokens) {c : Char} (hc : hexDigit c = none)
    (rest : List Char) :
    loadChars cfg (c :: rest) l = (tokenChar cfg l c).andThen (loadChars cfg rest) := by
  obtain ⟨hrun, hcomment, -⟩ := h
  rw [loadChars, loadChar_of_not_hex hrun hcomment hc]

theorem tokenChar_of_modsAfter {c : Char} {m : Fields} (hc : c ≠ ';')
    (hm : modsAfter l.mods c = some m) : tokenChar cfg l c = .running { l with mods := m } := by
  rw [tokenChar, if_neg hc, hm]

theorem tokenChar_of_opOfLetter {c : Char} {op : Op} (hc : c ≠ ';') (hm : c ∉ ['g', 'd', 'i', 'p'])
    (hop : opOfLetter c = some op) :
    tokenChar cfg l c = (emitWord cfg.coreSize l (encode w cfg.fnCode (op.instr l.mods))).andThen
      fun l => .running { l with mods := noMods } := by
  simp only [tokenChar, if_neg hc, modsAfter_eq_none hm, hop]

theorem tokenChar_of_not_letter {c : Char} (hc : c ≠ ';') (hm : c ∉ ['g', 'd', 'i', 'p'])
    (hop : opOfLetter c = none) : tokenChar cfg l c = .running l := by
  simp only [tokenChar, if_neg hc, modsAfter_eq_none hm, hop]

/-- A token that emits a word and sets the modifiers, and the load after it (R144). -/
theorem emitWord_andThen_loadChars (v : Word w) (m : Fields) (rest : List Char) :
    (emitWord cfg.coreSize l v).andThen (fun l => loadChars cfg rest { l with mods := m }) =
      emitThen cfg l v m rest := by
  unfold emitWord emitThen
  split <;> rfl

/-- A token that emits a word and keeps the modifiers, and the load after it (R144). -/
theorem emitWord_andThen_loadChars_same (v : Word w) (rest : List Char) :
    (emitWord cfg.coreSize l v).andThen (loadChars cfg rest) = emitThen cfg l v l.mods rest := by
  unfold emitWord emitThen
  split <;> rfl

theorem LoaderRun.andThen_assoc (r : LoaderRun w) (f g : LoaderState w → LoaderRun w) :
    (r.andThen f).andThen g = r.andThen fun l => (f l).andThen g := by
  cases r <;> rfl

/-! ### Mnemonics -/

/-- With no displacement pending, the word of a mnemonic is the packed word of its code and modifiers. -/
theorem encode_instr (w : Nat) (fc : FnCode) (op : Op) {m : Fields} (hm : m.dispField = 0) :
    encode w fc (op.instr m) = packWord w ⟨fc.codeOf op, { m with dispField := 0 }⟩ := by
  rw [encode, Op.instr_fnOf, Op.instr_fields, ← hm]

/-- Settles O57: a mnemonic letter goes through the scanner to its emission. -/
theorem loaderMnemonicEmitsItsInstruction : Obligations.LoaderMnemonicEmitsItsInstruction := by
  intro w cfg l letter op rest hl hletter
  obtain ⟨hhex, hcomment, hmods, hop⟩ := mnemonicLetters_spec _ hletter
  have ⟨_, _, hdisp⟩ := hl
  rw [loadChars_of_not_hex hl hhex, tokenChar_of_opOfLetter hcomment hmods hop,
    LoaderRun.andThen_assoc, encode_instr w cfg.fnCode op hdisp]
  exact emitWord_andThen_loadChars ..

/-! ### Hex runs -/

/-- The run's value is the number its digits spell, the first one the most significant (R139). -/
theorem hexValue_eq_ofDigits (digits : List Nat) : hexValue digits = Nat.ofDigits 16 digits.reverse := by
  rw [Nat.ofDigits_eq_foldr, List.foldr_reverse, hexValue]
  simp only [Nat.cast_id, Nat.add_comm]

theorem flushRun_of_run_ne_nil (coreSize : Nat) (h : l.run ≠ []) :
    flushRun coreSize l = emitWord coreSize { l with run := [] } (BitVec.ofNat w (hexValue l.run)) :=
  if_neg h

/-- Where a pending run fits, emitting it leaves none pending and changes no comment flag. -/
theorem flushRun_eq_running {coreSize : Nat} {l' : LoaderState w}
    (h : flushRun coreSize l = .running l') : l'.run = [] ∧ l'.inComment = l.inComment := by
  by_cases hrun : l.run = []
  · rw [flushRun_of_run_eq_nil coreSize hrun] at h
    cases h
    exact ⟨hrun, rfl⟩
  · rw [flushRun_of_run_ne_nil coreSize hrun, emitWord] at h
    split at h
    · cases h
      exact ⟨rfl, rfl⟩
    · cases h

/-- A run that the text ends or another character follows is emitted before the load goes on. -/
theorem loadChars_of_run_ended (hcomment : l.inComment = false) {rest : List Char}
    (hrest : ∀ c ∈ rest.head?, c ∉ hexDigits) :
    loadChars cfg rest l = (flushRun cfg.coreSize l).andThen (loadChars cfg rest) := by
  have hgo : ∀ l', flushRun cfg.coreSize l = .running l' → l'.run = [] ∧ l'.inComment = false :=
    fun l' h => ⟨(flushRun_eq_running h).1, (flushRun_eq_running h).2.trans hcomment⟩
  cases rest with
  | nil =>
    rw [loadChars]
    cases hflush : flushRun cfg.coreSize l with
    | running l' => exact (flushRun_of_run_eq_nil _ (hgo l' hflush).1).symm
    | overflow l' addr => rfl
  | cons c rest =>
    have hc := hexDigit_eq_none (hrest c rfl)
    have hchar : loadChar cfg l c = (flushRun cfg.coreSize l).andThen fun l => tokenChar cfg l c := by
      simp only [loadChar, hcomment, hc, Bool.false_eq_true, if_false]
    rw [loadChars, hchar]
    cases hflush : flushRun cfg.coreSize l with
    | running l' =>
      obtain ⟨hrun, hout⟩ := hgo l' hflush
      rw [LoaderRun.andThen, LoaderRun.andThen, loadChars, loadChar_of_not_hex hrun hout hc]
    | overflow l' addr => rfl

/-- One more digit of a run below its longest length (R139). -/
theorem loadChar_digit (hcomment : l.inComment = false) (d : Fin 16) :
    loadChar cfg l (hexDigits.getD d.val '0') =
      if l.run.length + 1 = maxRun w then flushRun cfg.coreSize { l with run := l.run ++ [d.val] }
      else .running { l with run := l.run ++ [d.val] } := by
  simp only [loadChar, hcomment, hexDigit_spelled, List.length_append, List.length_singleton,
    Bool.false_eq_true, if_false]

/-- A run of digits is collected, and emitted at once when it reaches its longest length (R140), by
induction on the digits. -/
theorem loadChars_spells (digits : List (Fin 16)) (rest : List Char) (l : LoaderState w)
    (hcomment : l.inComment = false) (hne : digits ≠ [])
    (hlength : l.run.length + digits.length ≤ maxRun w)
    (hend : l.run.length + digits.length = maxRun w ∨ ∀ c ∈ rest.head?, c ∉ hexDigits) :
    loadChars cfg (spells digits ++ rest) l =
      (flushRun cfg.coreSize { l with run := l.run ++ digits.map Fin.val }).andThen
        (loadChars cfg rest) := by
  induction digits generalizing l with
  | nil => exact absurd rfl hne
  | cons d ds ih =>
    rw [List.length_cons] at hlength hend
    rw [show spells (d :: ds) ++ rest = hexDigits.getD d.val '0' :: (spells ds ++ rest) from rfl,
      loadChars, loadChar_digit hcomment]
    by_cases hds : ds = []
    · subst hds
      split
      · rfl
      · next hshort =>
        exact loadChars_of_run_ended (l := { l with run := l.run ++ [d.val] }) hcomment
          (hend.resolve_left hshort)
    · have hpos := List.length_pos_iff.mpr hds
      rw [if_neg (by omega), LoaderRun.andThen, ih { l with run := l.run ++ [d.val] } hcomment hds]
      · rw [List.append_assoc]
        rfl
      · simp only [List.length_append, List.length_singleton]
        omega
      · refine hend.imp_left fun heq => ?_
        simp only [List.length_append, List.length_singleton]
        omega

/-- Settles O58: the run is collected, its value is emitted, and the rest is loaded. -/
theorem loaderHexRunEmitsItsValue : Obligations.LoaderHexRunEmitsItsValue := by
  intro w cfg l digits rest hl hne hlength hend
  obtain ⟨hrun, hcomment, -⟩ := hl
  have hzero : l.run.length = 0 := List.length_eq_zero_iff.mpr hrun
  rw [loadChars_spells digits rest l hcomment hne (by rwa [hzero, Nat.zero_add])
    (by rwa [hzero, Nat.zero_add]), flushRun_of_run_ne_nil _ (by simp [hne])]
  have hstate : { l with run := [] } = l := by rw [← hrun]
  rw [hstate, hrun, List.nil_append, hexValue_eq_ofDigits, ← List.map_reverse]
  exact emitWord_andThen_loadChars_same _ rest

/-! ### Text that emits nothing -/

/-- Within a comment every character but the line feed is skipped (R138). -/
theorem loadChars_comment {comment : List Char} (hcomment : '\n' ∉ comment) (rest : List Char)
    (hl : l.inComment = true) : loadChars cfg (comment ++ rest) l = loadChars cfg rest l := by
  induction comment with
  | nil => rfl
  | cons c comment ih =>
    obtain ⟨hc, htail⟩ := List.ne_and_not_mem_of_not_mem_cons hcomment
    rw [List.cons_append, loadChars, loadChar, if_pos hl, if_neg (Ne.symm hc)]
    exact ih htail

theorem loadChars_modifier (h : l.betweenTokens) {c : Char} {m : Fields} (hhex : hexDigit c = none)
    (hc : c ≠ ';') (hm : modsAfter l.mods c = some m) (rest : List Char) :
    loadChars cfg (c :: rest) l = loadChars cfg rest { l with mods := m } := by
  rw [loadChars_of_not_hex h hhex, tokenChar_of_modsAfter hc hm, LoaderRun.andThen]

theorem loadChars_semicolon (h : l.betweenTokens) (rest : List Char) :
    loadChars cfg (';' :: rest) l = loadChars cfg rest { l with inComment := true } := by
  rw [loadChars_of_not_hex h (by decide), tokenChar, if_pos rfl, LoaderRun.andThen]

theorem loadChars_ignored (h : l.betweenTokens) {c : Char} (hc : isIgnored c) (rest : List Char) :
    loadChars cfg (c :: rest) l = loadChars cfg rest l := by
  obtain ⟨hhex, hcomment, hmods, hletter⟩ := hc
  have hop : opOfLetter c = none :=
    Option.eq_none_iff_forall_not_mem.mpr fun op h => hletter op (mem_mnemonicLetters_of_opOfLetter h)
  rw [loadChars_of_not_hex h (hexDigit_eq_none hhex), tokenChar_of_not_letter hcomment hmods hop,
    LoaderRun.andThen]

/-- Settles O59: the start of a load, and each token by its own lemma. -/
theorem loaderEmitsNothingForOtherText : Obligations.LoaderEmitsNothingForOtherText := by
  refine ⟨fun w b text start => ⟨⟨rfl, rfl, rfl⟩, rfl, rfl⟩, fun w cfg l h => ?_⟩
  have ⟨hrun, hout, _⟩ := h
  refine ⟨fun rest => loadChars_modifier h (by decide) (by decide) rfl rest,
    fun rest => loadChars_modifier h (by decide) (by decide) rfl rest,
    fun rest => loadChars_modifier h (by decide) (by decide) rfl rest,
    fun rest => loadChars_modifier h (by decide) (by decide) rfl rest,
    fun comment rest hcomment => ?_, fun comment hcomment => ?_,
    fun c rest hc => loadChars_ignored h hc rest, flushRun_of_run_eq_nil cfg.coreSize hrun⟩
  · rw [loadChars_semicolon h, loadChars_comment hcomment _ rfl, loadChars, loadChar, if_pos rfl,
      if_pos rfl, LoaderRun.andThen, ← hout]
  · rw [loadChars_semicolon h, ← List.append_nil comment, loadChars_comment hcomment _ rfl]
    exact flushRun_of_run_eq_nil (l := { l with inComment := true }) cfg.coreSize hrun

end Sys2Proof.Machine
end
